-- ==== Sys2Proof/Word.lean ====
section
/-! DEFINITION. The two word types of the hardware (00_scope.md R5: 8-bit accumulator, 32-bit operands and results). -/

namespace Sys2Proof

/-- A byte: the width of an accumulator, of a stream element and of a buffer element (R5, R30). -/
abbrev Byte := BitVec 8

/-- A 32-bit word: a command word, an operand, a result, a host register (R5, R18). -/
abbrev Word := BitVec 32

end Sys2Proof
end

