-- ==== Sys2Proof/Machine/Ports.lean ====
section
/-! DEFINITION. Transactions on the sink port and on the source port, with their transaction-level encoding
(20_memory.md R31 to R34). A transaction that is never answered (R151) is the reply `none` where a reply is an `Option`. -/

namespace Sys2Proof.Machine

/-- An answer that carries no data: `OK` or `IOERR` (R31, R33). -/
inductive Ack
  | ok
  | ioerr
  deriving DecidableEq, Repr

/-- The answer to `SourceMark(limit)`: "always `OK`" (R7, R34). -/
inductive MarkAck
  | ok
  deriving DecidableEq, Repr

/-- The answer to `SourceRead()`: `Byte(b)`, `IOERR` or `EOD` (R7, R34). -/
inductive ReadAnswer
  | byte (b : Byte)
  | ioerr
  | eod
  deriving DecidableEq, Repr

/-- A request on the sink port (R32). -/
inductive SinkReq
  | write (b : Byte)
  | flush
  | close
  deriving DecidableEq, Repr

/-- A request on the source port (R34). -/
inductive SourceReq
  | read
  | mark (limit : Word)
  | reset
  deriving DecidableEq, Repr

/-- An answered sink transaction, an element of a trace (R7). -/
structure SinkEvent where
  req : SinkReq
  ack : Ack
  deriving DecidableEq, Repr

/-- An answered source transaction, an element of a trace (R7). -/
inductive SourceEvent
  | read (a : ReadAnswer)
  | mark (limit : Word) (a : MarkAck)
  | reset (a : Ack)
  deriving DecidableEq, Repr

/-- `KIND[1:0]` of a sink request (R32); 0b11 is never issued. -/
def SinkReq.kind : SinkReq → BitVec 2
  | .write _ => 0b00
  | .flush => 0b01
  | .close => 0b10

/-- `DATA[7:0]` of a sink request (R32). -/
def SinkReq.data : SinkReq → Byte
  | .write b => b
  | .flush => 0x00
  | .close => 0x00

/-- `KIND[1:0]` of a source request (R34); 0b11 is never issued. -/
def SourceReq.kind : SourceReq → BitVec 2
  | .read => 0b00
  | .mark _ => 0b01
  | .reset => 0b10

/-- `ARG[31:0]` of a source request (R34). -/
def SourceReq.arg : SourceReq → Word
  | .read => 0
  | .mark limit => limit
  | .reset => 0

/-- `RESP[0]` of the sink's answer to any of its requests (R32). -/
def Ack.resp : Ack → BitVec 1
  | .ok => 0
  | .ioerr => 1

/-- `RESP[1:0]` of the source's answer to `SourceReset()` (R34). -/
def Ack.sourceResp : Ack → BitVec 2
  | .ok => 0
  | .ioerr => 1

/-- `RESP[1:0]` of the source's answer to `SourceMark(limit)`: "0 `OK` only" (R34). -/
def MarkAck.resp : MarkAck → BitVec 2
  | .ok => 0

/-- `RESP[1:0]` of the answer to a `SourceRead()` (R34). -/
def ReadAnswer.resp : ReadAnswer → BitVec 2
  | .byte _ => 0
  | .ioerr => 1
  | .eod => 2

/-- `DATA[7:0]` of the answer to a `SourceRead()`, ignored unless `RESP` is 0 (R34). -/
def ReadAnswer.data : ReadAnswer → Option Byte
  | .byte b => some b
  | .ioerr => none
  | .eod => none

end Sys2Proof.Machine
end

