-- ==== Sys2Proof/Config.lean ====
section
/-! DEFINITION. What an implementation fixes (00_scope.md R5) the base addresses the platform chooses
(20_memory.md R45), and the free answers of the environment (R7, decision D21). -/

namespace Sys2Proof

/-- `SENTINEL`, the end-of-data value (R5). -/
def Config.sentinel : Word := 0xFFFFFFFF

/-- `RDBYTE_SWALLOWS_IOERR` (R5, R95): false, the value R5 gives and the resolution of 90_conflicts.md C3; `rdByteWith`
takes either value. Log entry 6. -/
def Config.rdbyteSwallowsIoErr : Bool := false

/-- What a buffer byte that nothing has written reads as.
DESIGN CHOICE (R37 leaves the content to the platform), unsafe: log entry 4. -/
def Config.bufferBackground : Byte := 0x00

/-- Passes of a chunk loop: "at most 5 passes each" (30_encoding.md R56). The loops recurse on this bound;
`writeLoop_cases` and `readLoop_cases` (Laws/Loops.lean) show that it cuts no run short (log entry 11). -/
def Config.maxPasses : Nat := 5

/-- FREE VALUE: the sink's reply to its `k`-th transaction when State prepares none; `none` is "never answered" (R7, R151).
Log entry 2. -/
opaque Config.freeSinkReply : Nat → Option Machine.Ack

/-- FREE VALUE: the source's reply to `SourceRead()` as its `k`-th transaction when State prepares none. Log entry 2. -/
opaque Config.freeReadReply : Nat → Option Machine.ReadAnswer

/-- FREE VALUE: the source's reply to `SourceMark` as its `k`-th transaction when State prepares none. Log entry 2. -/
opaque Config.freeMarkReply : Nat → Option Machine.MarkAck

/-- FREE VALUE: the source's reply to `SourceReset()` as its `k`-th transaction when State prepares none. Log entry 2. -/
opaque Config.freeResetReply : Nat → Option Machine.Ack

/-- PARAMETER: the word number of `BW_BASE`, which the platform chooses (20_memory.md R45, decision D2 `OPEN`).
Log entry 24. -/
opaque Config.bwBlock : Nat

/-- PARAMETER: the word number of `BR_BASE` (20_memory.md R45, decision D2 `OPEN`). Log entry 24. -/
opaque Config.brBlock : Nat

end Sys2Proof
end

