-- ==== Sys2Proof/Syntax.lean ====
section
/-! DEFINITION. The two units and the eleven commands (00_scope.md R1, 30_encoding.md R52). -/

namespace Sys2Proof

/-- The two independent units (R1, R133). -/
inductive UnitId
  /-- the BitWriter unit -/
  | bw
  /-- the BitReader unit -/
  | br
  deriving DecidableEq, Repr

/-- A decoded command word, one constructor per row of 30_encoding.md R52.
Only the field `N` of WRBITS and RDBITS is in the command word; every other operand is taken from
ARG0 and ARG1 when the command is issued (R53, R55). -/
inductive Instr
  /-- `writeBits(value, n)`, R70 -/
  | wrbits (n : Nat)
  /-- `write(byte)`, R75 -/
  | wrbyte
  /-- `write(buffer, offset, length)`, R76 -/
  | wrbuf
  /-- `flush()`, R77 -/
  | wflush
  /-- `close()`, R78 -/
  | wclose
  /-- `readBits(n)`, R90 -/
  | rdbits (n : Nat)
  /-- `read()`, R95 -/
  | rdbyte
  /-- `read(buffer, offset, length)`, R96 -/
  | rdbuf
  /-- `mark(limit)`, R98 -/
  | mark
  /-- `reset()`, R99 -/
  | reset
  /-- `skip(n)`, R101 -/
  | skip
  deriving DecidableEq, Repr

/-- The unit that runs the command (R52, column "unit"). -/
def Instr.unit : Instr → UnitId
  | .wrbits _ | .wrbyte | .wrbuf | .wflush | .wclose => .bw
  | .rdbits _ | .rdbyte | .rdbuf | .mark | .reset | .skip => .br

end Sys2Proof
end

