-- ==== Sys2Proof/Machine/State.lean ====
section
/-! DEFINITION. The state of the two units, of their register blocks, and of the environment they are attached to
(10_state.md R12 to R23, 20_memory.md R36, R37). -/

namespace Sys2Proof.Machine

/-- The five host interface registers of a unit (R18). -/
structure HostRegs where
  arg0 : Word
  arg1 : Word
  cmd : Word
  status : Word
  result : Word
  deriving DecidableEq, Repr

/-- A bit accumulator: `occupiedBits` and `byteBuffer` (R12, R14). -/
structure Accum where
  /-- number of valid bits, 0 to 8 -/
  occ : Nat
  /-- the byte; its top `occ` bits are the valid ones, MSB first -/
  buf : Byte
  deriving DecidableEq, Repr

/-- The empty accumulator `(0, 0x00)`. -/
def Accum.empty : Accum := { occ := 0, buf := 0x00 }

/-- The BitWriter unit (R12, R18). -/
structure BwUnit where
  acc : Accum
  regs : HostRegs
  /-- a sink transaction the sink never answered: its command is still in progress (R32, R151) -/
  awaiting : Option SinkReq
  deriving DecidableEq, Repr

/-- The BitReader unit (R14, R16, R18). -/
structure BrUnit where
  acc : Accum
  /-- the mark snapshot (R16) -/
  snap : Accum
  regs : HostRegs
  /-- a source transaction the source never answered: its command is still in progress (R34, R151) -/
  awaiting : Option SourceReq
  deriving DecidableEq, Repr

/-- The reference sink of R36. -/
structure RefSink where
  /-- the bytes accepted, oldest first -/
  out : List Byte
  isOpen : Bool
  /-- transactions made so far -/
  made : Nat
  /-- ordinal numbers (from 1) of the transactions a failing reference sink answers `IOERR` -/
  failing : List Nat
  deriving DecidableEq, Repr

/-- The reference source of R36. -/
structure RefSource where
  bytes : List Byte
  pos : Nat
  mark : Option Nat
  deriving DecidableEq, Repr

/-- What is attached to BW's sink port (R31, R142). -/
inductive SinkDevice
  /-- an unconstrained sink: its next replies, then free ones (R7, D21) -/
  | oracle (replies : List (Option Ack))
  /-- the reference sink (R36) -/
  | reference (k : RefSink)
  deriving DecidableEq, Repr

/-- What is attached to BR's source port (R33, R142). -/
inductive SourceDevice
  /-- an unconstrained source: its next replies to each kind of request, then free ones (R7, D21) -/
  | oracle (reads : List (Option ReadAnswer)) (marks : List (Option MarkAck)) (resets : List (Option Ack))
  /-- the reference source (R36) -/
  | reference (k : RefSource)
  deriving DecidableEq, Repr

/-- BW's sink port: the device, the count of transactions requested, and the trace (R7, R32). -/
structure SinkPort where
  device : SinkDevice
  asked : Nat
  trace : List SinkEvent
  deriving DecidableEq, Repr

/-- BR's source port (R7, R34). -/
structure SourcePort where
  device : SourceDevice
  asked : Nat
  trace : List SourceEvent
  deriving DecidableEq, Repr

/-- A memory of bytes: the listed (address, byte) pairs, in the canonical form `Memory.wf` (Machine/Ops.lean). -/
abbrev Memory := List Host.Cell

/-- The buffer space (R37): "whether the two units see the same one, is left to the platform". -/
inductive BufferSpace
  /-- both units see one memory -/
  | shared (m : Memory)
  /-- each unit sees its own -/
  | split (bwMem brMem : Memory)
  deriving DecidableEq, Repr

/-- The registers of a unit's block (R18). -/
inductive HostReg
  | arg0
  | arg1
  | cmd
  | status
  | result
  deriving DecidableEq, Repr

/-- Where the platform puts the two register blocks (20_memory.md R45). A base is word-aligned, so it is kept as its word
number. R45 bounds no address, so an address is a natural number (log entry 24). -/
structure AddressMap where
  bwBlock : Nat
  brBlock : Nat
  deriving DecidableEq, Repr

/-- What reaches the machine from outside, one event a step (log entries 1 and 19). -/
inductive Event
  /-- the host writes a word at an offset of a unit's register block (R18) -/
  | write (u : UnitId) (offset : Word) (v : Word)
  /-- the host reads the word at an offset of a unit's register block (R18) -/
  | read (u : UnitId) (offset : Word)
  /-- the host writes a word at a byte address (R18, R45) -/
  | writeAt (address : Nat) (v : Word)
  /-- the host reads the word at a byte address (R18, R45) -/
  | readAt (address : Nat)
  /-- the platform asserts a unit's reset input (R140) -/
  | reset (u : UnitId)
  /-- the platform attaches a sink (R142(a)) -/
  | attachSink (d : SinkDevice)
  /-- the platform attaches a source (R142(a)) -/
  | attachSource (d : SourceDevice)
  /-- a byte is stored from outside into the buffer space a unit sees (R22, R142(c)) -/
  | storeBuffer (u : UnitId) (a : Word) (v : Byte)
  deriving DecidableEq, Repr

/-- Why the machine stops. No command ever faults: the spec's errors are responses (R127). -/
inductive Fault
  /-- Raised by a host access (a read or a write, never a command) at an offset of a unit's register block where R18
  places no register; the spec gives the access no effect. Safe: the model stops where a platform may go on (log entry 8). -/
  | noRegister (u : UnitId) (offset : Word)
  /-- Raised by a host access (a read or a write, never a command) at a byte address where no register stands, or where
  the platform's blocks overlap and one of each unit does; the spec gives the access no effect. Safe: the model stops
  where a platform may go on (log entries 8 and 24). -/
  | noRegisterAt (address : Nat)
  deriving DecidableEq, Repr

/-- Why an instruction has no meaning. -/
inductive Refusal
  /-- Raised by an arm of `exec` for a command without a meaning; safe. Every command has one, so nothing raises it. -/
  | notModelled (mnemonic : String)
  deriving DecidableEq, Repr

/-- The whole state (INVENTORY.md, State). -/
structure State where
  bw : BwUnit
  br : BrUnit
  sink : SinkPort
  source : SourcePort
  buffer : BufferSpace
  /-- the base addresses of the register blocks (R45) -/
  map : AddressMap
  /-- what the host and the platform do next, oldest first (R11) -/
  host : List Event
  /-- the word the last host read returned (log entry 9) -/
  readData : Word
  deriving DecidableEq, Repr

/-- A register block after reset: five zeros (R18, R23). -/
def HostRegs.reset : HostRegs :=
  { arg0 := 0, arg1 := 0, cmd := 0, status := 0, result := 0 }

/-- BW after reset (R23, R140). -/
def BwUnit.reset : BwUnit :=
  { acc := Accum.empty, regs := HostRegs.reset, awaiting := none }

/-- BR after reset (R23, R140). -/
def BrUnit.reset : BrUnit :=
  { acc := Accum.empty, snap := Accum.empty, regs := HostRegs.reset, awaiting := none }

/-- The machine right after power-on reset (R23). The environment fields and `readData` are the model's own:
DESIGN CHOICE, log entries 2, 4, 5 and 9. The base addresses are the platform's, free here (R45, log entry 24). -/
def State.reset : State :=
  { bw := BwUnit.reset
    br := BrUnit.reset
    sink := { device := .oracle [], asked := 0, trace := [] }
    source := { device := .oracle [] [] [], asked := 0, trace := [] }
    buffer := .shared []
    map := { bwBlock := Config.bwBlock, brBlock := Config.brBlock }
    host := []
    readData := 0 }

end Sys2Proof.Machine
end

