-- ==== Sys2Proof/Machine/Flags.lean ====
section
/-! DEFINITION. The response of a command and how it reaches STATUS and RESULT, the only flags of this hardware
(00_scope.md R7, 10_state.md R19, R20, 60_exceptions.md R120, R121). -/

namespace Sys2Proof.Machine

/-- The error kinds (R120); the last is the spec's own. -/
inductive ErrorKind
  | invalidArgument
  | endOfStream
  | ioError
  | illegalCommand
  deriving DecidableEq, Repr

/-- The codes of `STATUS.CODE` (R19, R121); 5 to 7 are never produced. -/
inductive Code
  | ok
  | invalidArgument
  | endOfStream
  | ioError
  | illegalCommand
  deriving DecidableEq, Repr

/-- `code(K)` (R121). -/
def ErrorKind.code : ErrorKind → Code
  | .invalidArgument => .invalidArgument
  | .endOfStream => .endOfStream
  | .ioError => .ioError
  | .illegalCommand => .illegalCommand

/-- The number of a code (R19, R121). -/
def Code.toBits : Code → BitVec 3
  | .ok => 0
  | .invalidArgument => 1
  | .endOfStream => 2
  | .ioError => 3
  | .illegalCommand => 4

/-- The pair `(code, value)` a command ends with (R7). -/
structure Response where
  code : Code
  value : Word
  deriving DecidableEq, Repr

/-- `return v`: the response `(OK, v)` (R7). -/
def Response.ok (v : Word) : Response := { code := .ok, value := v }

/-- The word `STATUS` holds: `CODE` in bits 2 to 0, the reserved bits 0 (R19). -/
def statusWord (c : Code) : Word := c.toBits.setWidth 32

/-- `STATUS.CODE`, bits 2 to 0 (R19). -/
def statusCode (status : Word) : BitVec 3 := status.setWidth 3

/-- `U.STATUS <- zext_32(code) ; U.RESULT <- v` (R55). -/
def HostRegs.report (r : HostRegs) (x : Response) : HostRegs :=
  { r with status := statusWord x.code, result := x.value }

end Sys2Proof.Machine
end

