-- ==== Sys2Proof/Machine/Ops.lean ====
section
/-! DEFINITION. The named operations the commands share: raising an error, the buffer space, port transactions, the
chunk steps of the two accumulators, and how a command's end is written back. -/

namespace Sys2Proof.Machine

/-! ## Errors (the only exceptions of this hardware) -/

/-- `raise K`: the command ends at once with `(code(K), 0)`, and all state and transactions made before stand
(00_scope.md R7, 60_exceptions.md R121, R126). Nothing is saved and control goes nowhere (R127), so there is no return
operation beside it (R128). -/
def raise (k : ErrorKind) : Response := { code := k.code, value := 0 }

/-- How a command stands after its transactions: it ended with a response, or a request of it is never answered and
it has no response (R7, R151). -/
inductive Ending (ρ : Type)
  | done (r : Response)
  | blocked (req : ρ)
  deriving DecidableEq, Repr

/-- STATUS and RESULT are written by a command "at its end" (R19); a command without a response writes neither (R151). -/
def Ending.report {ρ : Type} (e : Ending ρ) (regs : HostRegs) : HostRegs :=
  match e with
  | .done x => regs.report x
  | .blocked _ => regs

/-- The request a blocked command waits for (R151). -/
def Ending.pending {ρ : Type} : Ending ρ → Option ρ
  | .done _ => none
  | .blocked q => some q

/-! ## The buffer space (20_memory.md R37) -/

/-- The canonical form of a memory: addresses strictly rising and inside the 2^32 bytes of R37, and no entry equal to
what an unlisted address reads as. -/
abbrev Memory.wf (m : Memory) : Prop :=
  m.Pairwise (fun x y => x.1 < y.1) ∧ ∀ c ∈ m, c.2 ≠ Config.bufferBackground ∧ c.1 < 2 ^ 32

/-- The byte at an address of a memory. -/
def Memory.read : Memory → Nat → Byte
  | [], _ => Config.bufferBackground
  | (k, v) :: m, a => if k = a then v else Memory.read m a

/-- An entry for `(a, v)` in front of `m`, unless `v` is what an unlisted address reads as. -/
def Memory.cons (a : Nat) (v : Byte) (m : Memory) : Memory :=
  if v = Config.bufferBackground then m else (a, v) :: m

/-- Store a byte at an address of a memory, keeping the canonical form. -/
def Memory.write : Memory → Nat → Byte → Memory
  | [], a, v => Memory.cons a v []
  | (k, w) :: m, a, v =>
    if a < k then Memory.cons a v ((k, w) :: m)
    else if a = k then Memory.cons a v m
    else (k, w) :: Memory.write m a v

/-- The memory a unit sees through its buffer port. -/
def BufferSpace.view (b : BufferSpace) (u : UnitId) : Memory :=
  match b, u with
  | .shared m, _ => m
  | .split m _, .bw => m
  | .split _ m, .br => m

/-- `MemRead(a, 1)` by unit `u` (R37). -/
def BufferSpace.read (b : BufferSpace) (u : UnitId) (a : Nat) : Byte :=
  Memory.read (b.view u) a

/-- `MemWrite(a, 1, v)` by unit `u` (R37): "no side effect other than the store itself". -/
def BufferSpace.write (b : BufferSpace) (u : UnitId) (a : Nat) (v : Byte) : BufferSpace :=
  match b, u with
  | .shared m, _ => .shared (Memory.write m a v)
  | .split m n, .bw => .split (Memory.write m a v) n
  | .split m n, .br => .split m (Memory.write n a v)

/-- Every memory of the buffer space is in canonical form. -/
abbrev BufferSpace.wf (b : BufferSpace) : Prop :=
  Memory.wf (b.view .bw) ∧ Memory.wf (b.view .br)

/-! ## The sink port (20_memory.md R31, R32, R36) -/

/-- One transaction of the reference sink (R36). The failing one "additionally answers `IOERR` (without appending)",
read as having no other effect either: log entry 20. -/
def RefSink.answer (k : RefSink) (r : SinkReq) : Ack × RefSink :=
  if k.made + 1 ∈ k.failing then (.ioerr, { k with made := k.made + 1 })
  else if k.isOpen then
    match r with
    | .write b => (.ok, { k with made := k.made + 1, out := k.out ++ [b] })
    | .flush => (.ok, { k with made := k.made + 1 })
    | .close => (.ok, { k with made := k.made + 1, isOpen := false })
  else (.ioerr, { k with made := k.made + 1 })

/-- What the attached sink replies to its `asked`-th transaction; `none` is never (R151). -/
def SinkDevice.answer (d : SinkDevice) (asked : Nat) (r : SinkReq) : Option Ack × SinkDevice :=
  match d with
  | .oracle [] => (Config.freeSinkReply asked, .oracle [])
  | .oracle (x :: xs) => (x, .oracle xs)
  | .reference k => (some (k.answer r).1, .reference (k.answer r).2)

/-- One sink transaction (R32): the reply, and the port after it, the answered transaction in its trace (R7). -/
def sinkTransact (r : SinkReq) (p : SinkPort) : Option Ack × SinkPort :=
  let x := p.device.answer p.asked r
  (x.1, { device := x.2, asked := p.asked + 1, trace := p.trace ++ x.1.toList.map fun a => { req := r, ack := a } })

/-! ## The source port (20_memory.md R33, R34, R36) -/

/-- `SourceRead()` of the reference source (R36). -/
def RefSource.read (k : RefSource) : ReadAnswer × RefSource :=
  match k.bytes[k.pos]? with
  | some b => (.byte b, { k with pos := k.pos + 1 })
  | none => (.eod, k)

/-- `SourceReset()` of the reference source (R36): the mark stays valid. -/
def RefSource.rewind (k : RefSource) : Ack × RefSource :=
  match k.mark with
  | some m => (.ok, { k with pos := m })
  | none => (.ioerr, k)

/-- The attached source's reply to `SourceRead()`. -/
def SourceDevice.read (d : SourceDevice) (asked : Nat) : Option ReadAnswer × SourceDevice :=
  match d with
  | .oracle [] ms rs => (Config.freeReadReply asked, .oracle [] ms rs)
  | .oracle (x :: xs) ms rs => (x, .oracle xs ms rs)
  | .reference k => (some k.read.1, .reference k.read.2)

/-- The attached source's reply to `SourceMark(limit)`. The reference source ignores the limit (R36); an oracle's
reply is the free value whatever the limit (R35). -/
def SourceDevice.mark (d : SourceDevice) (asked : Nat) : Option MarkAck × SourceDevice :=
  match d with
  | .oracle xs [] rs => (Config.freeMarkReply asked, .oracle xs [] rs)
  | .oracle xs (m :: ms) rs => (m, .oracle xs ms rs)
  | .reference k => (some .ok, .reference { k with mark := some k.pos })

/-- The attached source's reply to `SourceReset()`. -/
def SourceDevice.rewind (d : SourceDevice) (asked : Nat) : Option Ack × SourceDevice :=
  match d with
  | .oracle xs ms [] => (Config.freeResetReply asked, .oracle xs ms [])
  | .oracle xs ms (r :: rs) => (r, .oracle xs ms rs)
  | .reference k => (some k.rewind.1, .reference k.rewind.2)

/-- One `SourceRead()` transaction (R34). -/
def sourceRead (p : SourcePort) : Option ReadAnswer × SourcePort :=
  let x := p.device.read p.asked
  (x.1, { device := x.2, asked := p.asked + 1, trace := p.trace ++ x.1.toList.map SourceEvent.read })

/-- One `SourceMark(limit)` transaction (R34, R35). -/
def sourceMark (limit : Word) (p : SourcePort) : Option MarkAck × SourcePort :=
  let x := p.device.mark p.asked
  (x.1, { device := x.2, asked := p.asked + 1, trace := p.trace ++ x.1.toList.map (SourceEvent.mark limit) })

/-- One `SourceReset()` transaction (R34). -/
def sourceReset (p : SourcePort) : Option Ack × SourcePort :=
  let x := p.device.rewind p.asked
  (x.1, { device := x.2, asked := p.asked + 1, trace := p.trace ++ x.1.toList.map SourceEvent.reset })

/-! ## The writer's shift-mask datapath (40_bitwriter.md R70, R72) -/

/-- `mask(k) = 2^k - 1` (00_scope.md R6). -/
def mask (k : Nat) : Nat := 2 ^ k - 1

/-- `free = 8 - occ`, the empty capacity (R70). -/
def Accum.free (a : Accum) : Nat := 8 - a.occ

/-- `k = min(rem, free)`, the size of the chunk of one pass (R70). -/
def Accum.chunkIn (a : Accum) (rem : Nat) : Nat := min rem a.free

/-- Extract the chunk from the `rem` unwritten low bits of `value`, and place it below the valid bits (R72(a), (b), (d)). -/
def Accum.append (a : Accum) (value rem : Nat) : Accum :=
  let k := a.chunkIn rem
  let chunk := (value >>> (rem - k)) &&& mask k
  { occ := a.occ + k, buf := a.buf ||| BitVec.ofNat 8 (chunk <<< (a.free - k)) }

/-- What a writing command works on: BW's accumulator and the sink port. -/
structure Writer where
  acc : Accum
  port : SinkPort
  deriving DecidableEq, Repr

/-- The chunk loop of WRBITS (R70), `fuel` passes at most. -/
def writeLoop : Nat → Nat → Nat → Writer → Ending SinkReq × Writer
  | 0, _, _, w => (.done (Response.ok 0), w)
  | fuel + 1, value, rem, w =>
    if rem = 0 then (.done (Response.ok 0), w)
    else
      let acc := w.acc.append value rem
      let left := rem - w.acc.chunkIn rem
      if acc.occ = 8 then
        match sinkTransact (.write acc.buf) w.port with
        | (some .ok, p) => writeLoop fuel value left { acc := Accum.empty, port := p }
        | (some .ioerr, p) => (.done (raise .ioError), { acc := acc, port := p })
        | (none, p) => (.blocked (.write acc.buf), { acc := acc, port := p })
      else writeLoop fuel value left { acc := acc, port := w.port }

/-! ## The reader's shift-mask datapath (41_bitreader.md R90, R92, R93) -/

/-- `k = min(rem, occ)`, the size of the chunk of one pass (R90). -/
def Accum.chunkOut (a : Accum) (rem : Nat) : Nat := min rem a.occ

/-- The top `k` bits (R92(a)). -/
def Accum.top (a : Accum) (k : Nat) : Nat := a.buf.toNat >>> (8 - k)

/-- Consume `k` bits from the top; the shift is "masked to a byte" (R92(c), (d)). -/
def Accum.drop (a : Accum) (k : Nat) : Accum :=
  { occ := a.occ - k, buf := a.buf <<< k }

/-- What a reading command works on: BR's accumulator and the source port. -/
structure Reader where
  acc : Accum
  port : SourcePort
  deriving DecidableEq, Repr

/-- How a refill leaves the reader: with bits to take, or at the command's end (R93, R94, R151). -/
inductive Refill
  | ready
  | ended (e : Ending SourceReq)
  deriving DecidableEq, Repr

/-- The refill of R90: only when the accumulator is empty is a byte asked for (R93). -/
def refill (r : Reader) : Refill × Reader :=
  if r.acc.occ = 0 then
    match sourceRead r.port with
    | (some (.byte b), p) => (.ready, { acc := { occ := 8, buf := b }, port := p })
    | (some .eod, p) => (.ended (.done (raise .endOfStream)), { acc := r.acc, port := p })
    | (some .ioerr, p) => (.ended (.done (raise .ioError)), { acc := r.acc, port := p })
    | (none, p) => (.ended (.blocked .read), { acc := r.acc, port := p })
  else (.ready, r)

/-- The chunk loop of RDBITS (R90), `fuel` passes at most, on the result gathered so far. -/
def readLoop : Nat → Nat → Nat → Reader → Ending SourceReq × Reader
  | 0, _, result, r => (.done (Response.ok (BitVec.ofNat 32 result)), r)
  | fuel + 1, rem, result, r =>
    if rem = 0 then (.done (Response.ok (BitVec.ofNat 32 result)), r)
    else
      match refill r with
      | (.ended e, r') => (e, r')
      | (.ready, r') =>
        let k := r'.acc.chunkOut rem
        readLoop fuel (rem - k) ((result <<< k) ||| r'.acc.top k) { acc := r'.acc.drop k, port := r'.port }

/-! ## Writing a command's end back to the unit -/

/-- The writer's view of the state. -/
def State.writer (s : State) : Writer := { acc := s.bw.acc, port := s.sink }

/-- The reader's view of the state. -/
def State.reader (s : State) : Reader := { acc := s.br.acc, port := s.source }

/-- BW after a command: its accumulator, the port, and the response if there is one (30_encoding.md R55). -/
def State.finishBw (s : State) (x : Ending SinkReq × Writer) : State :=
  { s with
    bw := { acc := x.2.acc, regs := x.1.report s.bw.regs, awaiting := x.1.pending }
    sink := x.2.port }

/-- BR after a command: its accumulator, the port, and the response if there is one (30_encoding.md R55). -/
def State.finishBr (s : State) (x : Ending SourceReq × Reader) : State :=
  { s with
    br := { s.br with acc := x.2.acc, regs := x.1.report s.br.regs, awaiting := x.1.pending }
    source := x.2.port }

end Sys2Proof.Machine
end

