-- ==== Sys2Proof/Machine/Operands.lean ====
section
/-! DEFINITION. Every operand form (30_encoding.md R53), and the argument checks (40_bitwriter.md R71, R76,
41_bitreader.md R91, R96). Operands are unsigned and zero-extended; nothing is scaled or shifted. -/

namespace Sys2Proof.Machine

/-- WRBITS: `value = ARG0[31:0]`. -/
def HostRegs.value (r : HostRegs) : Word := r.arg0

/-- WRBYTE: `byte & 0xFF`, the low byte of ARG0 in a word (R75). -/
def HostRegs.byte (r : HostRegs) : Word := r.arg0 &&& 0xFF

/-- WRBUF, RDBUF: `offset = ARG0`. -/
def HostRegs.offset (r : HostRegs) : Word := r.arg0

/-- WRBUF, RDBUF: `length = ARG1`. -/
def HostRegs.length (r : HostRegs) : Word := r.arg1

/-- MARK: `limit = ARG0`. -/
def HostRegs.limit (r : HostRegs) : Word := r.arg0

/-- SKIP: `count = ARG0`. -/
def HostRegs.count (r : HostRegs) : Word := r.arg0

/-- A legal run length: 1 to 32 (R71, R91). -/
def runLengthOk (n : Nat) : Bool := decide (1 ≤ n ∧ n ≤ 32)

/-- `value <= 2^n - 1`, an unsigned comparison at full precision (R71, 00_scope.md R8(a)). -/
def fitsIn (value : Word) (n : Nat) : Bool := decide (value.toNat ≤ 2 ^ n - 1)

/-- `offset + length <= 2^32`, so that no address of the transfer wraps (R37, R76, R96). -/
def rangeOk (offset length : Word) : Bool := decide (offset.toNat + length.toNat ≤ 2 ^ 32)

end Sys2Proof.Machine
end

