-- ==== Sys2Proof/Machine/BitReader.lean ====
section
/-! DEFINITION. The commands of the BitReader unit (41_bitreader.md). Each has its algorithm on a `Reader`, as the spec
writes it, and its meaning on the state. -/

namespace Sys2Proof.Machine

/-- `RDBITS(n)`: the argument check, then the chunk loop from the result 0 (R90, R91). -/
def rdBits (n : Nat) (r : Reader) : Ending SourceReq × Reader :=
  if runLengthOk n then readLoop Config.maxPasses n 0 r
  else (.done (raise .invalidArgument), r)

/-- What RDBYTE makes of the response of its 8-bit run (R95); `swallow` is the parameter RDBYTE_SWALLOWS_IOERR. -/
def byteResponse (swallow : Bool) (x : Response) : Response :=
  if x.code = .endOfStream ∨ (swallow = true ∧ x.code = .ioError) then Response.ok Config.sentinel else x

/-- `RDBYTE()` under either value of RDBYTE_SWALLOWS_IOERR (R95, decision D22). -/
def rdByteWith (swallow : Bool) (r : Reader) : Ending SourceReq × Reader :=
  match rdBits 8 r with
  | (.done x, r') => (.done (byteResponse swallow x), r')
  | (.blocked q, r') => (.blocked q, r')

/-- `RDBYTE()` of this hardware (R95). -/
def rdByte (r : Reader) : Ending SourceReq × Reader := rdByteWith Config.rdbyteSwallowsIoErr r

/-- The element loop of RDBUF: `left` more bytes, `i` stored so far, byte `i` going to `offset + i` (R96). The sentinel on
the first byte is returned; on a later one the count is. -/
def fillLoop (offset : Nat) : Nat → Nat → Reader → BufferSpace → Ending SourceReq × Reader × BufferSpace
  | 0, i, r, b => (.done (Response.ok (BitVec.ofNat 32 i)), r, b)
  | left + 1, i, r, b =>
    match rdByte r with
    | (.done x, r') =>
      if x.code ≠ .ok then (.done { code := x.code, value := 0 }, r', b)
      else if x.value = Config.sentinel then
        (.done (Response.ok (if i = 0 then Config.sentinel else BitVec.ofNat 32 i)), r', b)
      else fillLoop offset left (i + 1) r' (b.write .br (offset + i) (x.value.setWidth 8))
    | (.blocked q, r') => (.blocked q, r', b)

/-- `RDBUF(offset, length)` (R96); `length = 0` makes no transaction and returns 0. -/
def rdBuf (offset length : Word) (r : Reader) (b : BufferSpace) : Ending SourceReq × Reader × BufferSpace :=
  if rangeOk offset length then fillLoop offset.toNat length.toNat 0 r b
  else (.done (raise .invalidArgument), r, b)

/-- The loop of SKIP: `left` more bytes to skip, `cnt` skipped so far (R101). -/
def skipLoop : Nat → Nat → Reader → Ending SourceReq × Reader
  | 0, cnt, r => (.done (Response.ok (BitVec.ofNat 32 cnt)), r)
  | left + 1, cnt, r =>
    match rdByte r with
    | (.done x, r') =>
      if x.code ≠ .ok then (.done { code := x.code, value := 0 }, r')
      else if x.value = Config.sentinel then (.done (Response.ok (BitVec.ofNat 32 cnt)), r')
      else skipLoop left (cnt + 1) r'
    | (.blocked q, r') => (.blocked q, r')

/-- The transaction of `MARK(limit)` (R98). -/
def markSource (limit : Word) (r : Reader) : Ending SourceReq × Reader :=
  match sourceMark limit r.port with
  | (some .ok, p) => (.done (Response.ok 0), { acc := r.acc, port := p })
  | (none, p) => (.blocked (.mark limit), { acc := r.acc, port := p })

/-- `RESET()`: the source first, and only if it accepts is the accumulator restored from the snapshot (R99, R100). -/
def resetSource (snap : Accum) (r : Reader) : Ending SourceReq × Reader :=
  match sourceReset r.port with
  | (some .ok, p) => (.done (Response.ok 0), { acc := snap, port := p })
  | (some .ioerr, p) => (.done (raise .ioError), { acc := r.acc, port := p })
  | (none, p) => (.blocked .reset, { acc := r.acc, port := p })

/-- RDBITS (R90). -/
def execRdbits (n : Nat) (s : State) : Host.Outcome State Fault Refusal :=
  .next (s.finishBr (rdBits n s.reader))

/-- RDBYTE (R95). -/
def execRdbyte (s : State) : Host.Outcome State Fault Refusal :=
  .next (s.finishBr (rdByte s.reader))

/-- RDBUF (R96). -/
def execRdbuf (s : State) : Host.Outcome State Fault Refusal :=
  let x := rdBuf s.br.regs.offset s.br.regs.length s.reader s.buffer
  .next { s.finishBr (x.1, x.2.1) with buffer := x.2.2 }

/-- MARK (R98): the snapshot first, then the source's own mark. -/
def execMark (s : State) : Host.Outcome State Fault Refusal :=
  .next (({ s with br := { s.br with snap := s.br.acc } } : State).finishBr (markSource s.br.regs.limit s.reader))

/-- RESET (R99): the snapshot is kept. -/
def execReset (s : State) : Host.Outcome State Fault Refusal :=
  .next (s.finishBr (resetSource s.br.snap s.reader))

/-- SKIP (R101). -/
def execSkip (s : State) : Host.Outcome State Fault Refusal :=
  .next (s.finishBr (skipLoop s.br.regs.count.toNat 0 s.reader))

end Sys2Proof.Machine
end

