-- ==== Sys2Proof/Machine/BitWriter.lean ====
section
/-! DEFINITION. The commands of the BitWriter unit (40_bitwriter.md). Each has its algorithm on a `Writer`, as the spec
writes it, and its meaning on the state. -/

namespace Sys2Proof.Machine

/-- `WRBITS(value, n)`: the argument check, then the chunk loop (R70, R71). -/
def wrBits (value : Word) (n : Nat) (w : Writer) : Ending SinkReq × Writer :=
  if runLengthOk n && fitsIn value n then writeLoop Config.maxPasses value.toNat n w
  else (.done (raise .invalidArgument), w)

/-- `WRBYTE(arg0)`, given `arg0 & 0xFF`: an 8-bit run (R75). -/
def wrByte (byte : Word) (w : Writer) : Ending SinkReq × Writer := wrBits byte 8 w

/-- The element loop of WRBUF: `left` elements from address `a` on, each read just before it is appended (R76). -/
def wrBytes (b : BufferSpace) : Nat → Nat → Writer → Ending SinkReq × Writer
  | _, 0, w => (.done (Response.ok 0), w)
  | a, left + 1, w =>
    match wrByte ((b.read .bw a).setWidth 32) w with
    | (.done x, w') => if x.code = .ok then wrBytes b (a + 1) left w' else (.done { code := x.code, value := 0 }, w')
    | (.blocked q, w') => (.blocked q, w')

/-- `WRBUF(offset, length)` (R76). -/
def wrBuf (b : BufferSpace) (offset length : Word) (w : Writer) : Ending SinkReq × Writer :=
  if rangeOk offset length then wrBytes b offset.toNat length.toNat w
  else (.done (raise .invalidArgument), w)

/-- The transactions of WCLOSE in order: every one is attempted whatever the earlier ones answered, and the command
fails if one failed (R78, R79). BW "does nothing else until the answer arrives" (R32), so an unanswered one ends the list. -/
def closeSteps : List SinkReq → Bool → Writer → Ending SinkReq × Writer
  | [], failed, w => (.done (if failed then raise .ioError else Response.ok 0), w)
  | r :: rs, failed, w =>
    match sinkTransact r w.port with
    | (some a, p) => closeSteps rs (failed || a == .ioerr) { acc := w.acc, port := p }
    | (none, p) => (.blocked r, { acc := w.acc, port := p })

/-- The requests of WCLOSE: the pending byte if there is one, flush, close (R78). -/
def closeRequests (a : Accum) : List SinkReq :=
  if a.occ > 0 then [.write a.buf, .flush, .close] else [.flush, .close]

/-- `WCLOSE()` (R78): the accumulator is read and not written. -/
def wClose (w : Writer) : Ending SinkReq × Writer := closeSteps (closeRequests w.acc) false w

/-- WRBITS (R70). -/
def execWrbits (n : Nat) (s : State) : Host.Outcome State Fault Refusal :=
  .next (s.finishBw (wrBits s.bw.regs.value n s.writer))

/-- WRBYTE (R75). -/
def execWrbyte (s : State) : Host.Outcome State Fault Refusal :=
  .next (s.finishBw (wrByte s.bw.regs.byte s.writer))

/-- WRBUF (R76). -/
def execWrbuf (s : State) : Host.Outcome State Fault Refusal :=
  .next (s.finishBw (wrBuf s.buffer s.bw.regs.offset s.bw.regs.length s.writer))

/-- WFLUSH (R77): reads nothing, writes nothing, makes no transaction, responds `(OK, 0)`. -/
def execWflush (s : State) : Host.Outcome State Fault Refusal :=
  .next (s.finishBw (.done (Response.ok 0), s.writer))

/-- WCLOSE (R78). -/
def execWclose (s : State) : Host.Outcome State Fault Refusal :=
  .next (s.finishBw (wClose s.writer))

end Sys2Proof.Machine
end

