-- ==== Sys2Proof/Machine/Dispatch.lean ====
section
/-! DEFINITION. One arm per command: the call of its meaning (30_encoding.md R55, "run the rule named by row"). -/

namespace Sys2Proof.Machine

/-- The unit has taken the command: run it to its end. -/
def exec (i : Instr) (s : State) : Host.Outcome State Fault Refusal :=
  match i with
  | .wrbits n => Sys2Proof.Machine.execWrbits n s
  | .wrbyte => Sys2Proof.Machine.execWrbyte s
  | .wrbuf => Sys2Proof.Machine.execWrbuf s
  | .wflush => Sys2Proof.Machine.execWflush s
  | .wclose => Sys2Proof.Machine.execWclose s
  | .rdbits n => Sys2Proof.Machine.execRdbits n s
  | .rdbyte => Sys2Proof.Machine.execRdbyte s
  | .rdbuf => Sys2Proof.Machine.execRdbuf s
  | .mark => Sys2Proof.Machine.execMark s
  | .reset => Sys2Proof.Machine.execReset s
  | .skip => Sys2Proof.Machine.execSkip s

end Sys2Proof.Machine
end

