-- ==== Sys2Proof/WellFormed.lean ====
section
/-! DEFINITION. What an encoding can express (30_encoding.md R51: `N` is 8 bits, unsigned 0 to 255). -/

namespace Sys2Proof

/-- A command is well formed when its count fits the field `N`. A count outside 1 to 32 is well formed:
it is a legal encoding whose argument check fails (R54). -/
def Instr.wellFormed : Instr → Bool
  | .wrbits n | .rdbits n => decide (n ≤ 255)
  | .wrbyte | .wrbuf | .wflush | .wclose | .rdbyte | .rdbuf | .mark | .reset | .skip => true

end Sys2Proof
end

