-- ==== Sys2Proof/Decode.lean ====
section
/-! DEFINITION. Decoding a 32-bit command word, and encoding one (30_encoding.md R50 to R55). -/

namespace Sys2Proof

/-- Why a command word is illegal for a unit (R54). All four give the same response. -/
inductive Illegal
  /-- `OPC` is outside 0x10..0x14, 0x20..0x25 -/
  | noSuchOpcode
  /-- `RSV` is not 0x0000 -/
  | reservedBits
  /-- `N` is not 0 with an opcode other than WRBITS and RDBITS -/
  | countWhereUnused
  /-- the opcode belongs to the other unit -/
  | otherUnit
  deriving DecidableEq, Repr

/-- `OPC`, bits 31 to 24 (R51). -/
def opcField (w : Word) : Byte := w.extractLsb' 24 8

/-- `RSV`, bits 23 to 8 (R51). -/
def rsvField (w : Word) : BitVec 16 := w.extractLsb' 8 16

/-- `N`, bits 7 to 0 (R51). -/
def nField (w : Word) : Byte := w.extractLsb' 0 8

/-- A command without a count: `N` must be 0x00 (R51, R54). -/
def withoutCount (n : Byte) (i : Instr) : Except Illegal Instr :=
  if n = 0 then .ok i else .error .countWhereUnused

/-- The opcode map of R52, given `OPC` and `N`. -/
def decodeOpcode (opc n : Byte) : Except Illegal Instr :=
  match opc.toNat with
  | 0x10 => .ok (.wrbits n.toNat)
  | 0x11 => withoutCount n .wrbyte
  | 0x12 => withoutCount n .wrbuf
  | 0x13 => withoutCount n .wflush
  | 0x14 => withoutCount n .wclose
  | 0x20 => .ok (.rdbits n.toNat)
  | 0x21 => withoutCount n .rdbyte
  | 0x22 => withoutCount n .rdbuf
  | 0x23 => withoutCount n .mark
  | 0x24 => withoutCount n .reset
  | 0x25 => withoutCount n .skip
  | _ => .error .noSuchOpcode

/-- The row of R52 that a command word selects, total on every word, an illegal word rejected by name (R54). -/
def decode (w : Word) : Except Illegal Instr :=
  if rsvField w = 0 then decodeOpcode (opcField w) (nField w) else .error .reservedBits

/-- What unit `u` makes of a word written to its `CMD`: a row of the other unit is illegal for it (R54, R55). -/
def decodeFor (u : UnitId) (w : Word) : Except Illegal Instr :=
  match decode w with
  | .ok i => if i.unit = u then .ok i else .error .otherUnit
  | .error e => .error e

/-- `OPC` of a command (R52). -/
def Instr.opcode : Instr → Byte
  | .wrbits _ => 0x10
  | .wrbyte => 0x11
  | .wrbuf => 0x12
  | .wflush => 0x13
  | .wclose => 0x14
  | .rdbits _ => 0x20
  | .rdbyte => 0x21
  | .rdbuf => 0x22
  | .mark => 0x23
  | .reset => 0x24
  | .skip => 0x25

/-- `N` of a command (R51). -/
def Instr.count : Instr → Nat
  | .wrbits n | .rdbits n => n
  | .wrbyte | .wrbuf | .wflush | .wclose | .rdbyte | .rdbuf | .mark | .reset | .skip => 0

/-- The command word of a well-formed command: `OPC`, then sixteen zero bits, then `N` (R51, R52). -/
def encode (i : Instr) : Word :=
  i.opcode ++ 0#16 ++ BitVec.ofNat 8 i.count

/-- The instruction the decoder reads from a table word. A command is one 32-bit register value (R50), so
there is no byte order and no operand word: the table's bit numbers are the word's own. A number that does
not fit in `nbits` bits, or in 32, is no command word. -/
def decodeTableWord (nbits w : Nat) : Option Instr :=
  if w < 2 ^ nbits ∧ w < 2 ^ 32 then
    match decode (BitVec.ofNat 32 w) with
    | .ok i => some i
    | .error _ => none
  else none

end Sys2Proof
end

