-- ==== Sys2Proof/Machine/HostPort.lean ====
section
/-! DEFINITION. The host register block (10_state.md R18) and its address (20_memory.md R45), the reset input (70_reset_and_hazards.md R140), and the
response to an illegal command word (30_encoding.md R54, R55). -/

namespace Sys2Proof.Machine

/-- The offset of a register in its unit's block (R18). -/
def HostReg.offset : HostReg → Word
  | .arg0 => 0x00
  | .arg1 => 0x04
  | .cmd => 0x08
  | .status => 0x0C
  | .result => 0x10

/-- The register that many bytes above the base of a block, if R18 places one there. -/
def HostReg.atDistance (d : Nat) : Option HostReg :=
  match d with
  | 0x00 => some .arg0
  | 0x04 => some .arg1
  | 0x08 => some .cmd
  | 0x0C => some .status
  | 0x10 => some .result
  | _ => none

/-- The register at an offset, if R18 places one there. -/
def HostReg.atOffset (o : Word) : Option HostReg := HostReg.atDistance o.toNat

/-- `BW_BASE` and `BR_BASE`, word-aligned (20_memory.md R45). -/
def AddressMap.base (m : AddressMap) : UnitId → Nat
  | .bw => 4 * m.bwBlock
  | .br => 4 * m.brBlock

/-- The register of a unit's block at a byte address, if R18 places one there. -/
def AddressMap.registerAt (m : AddressMap) (u : UnitId) (address : Nat) : Option HostReg :=
  if m.base u ≤ address then HostReg.atDistance (address - m.base u) else none

/-- The unit and the register at a byte address: none where no block has a register, and none where overlapping blocks
both have one (log entry 24). -/
def AddressMap.locate (m : AddressMap) (address : Nat) : Option (UnitId × HostReg) :=
  match m.registerAt .bw address, m.registerAt .br address with
  | some reg, none => some (.bw, reg)
  | none, some reg => some (.br, reg)
  | some _, some _ => none
  | none, none => none

/-- A unit's register block. -/
def State.regs (s : State) : UnitId → HostRegs
  | .bw => s.bw.regs
  | .br => s.br.regs

/-- The state with another register block of a unit. -/
def State.withRegs (s : State) (u : UnitId) (r : HostRegs) : State :=
  match u with
  | .bw => { s with bw := { s.bw with regs := r } }
  | .br => { s with br := { s.br with regs := r } }

/-- A command of the unit is still in progress because a transaction of it is never answered (R151). -/
def State.blocked (s : State) : UnitId → Bool
  | .bw => s.bw.awaiting.isSome
  | .br => s.br.awaiting.isSome

/-- A host write of a register other than CMD: ARG0 and ARG1 are latches, "a host write is ignored" by STATUS and
RESULT (R18). A write of CMD issues a command (Machine/Issue.lean); here it only latches the word. -/
def HostRegs.write (r : HostRegs) (reg : HostReg) (v : Word) : HostRegs :=
  match reg with
  | .arg0 => { r with arg0 := v }
  | .arg1 => { r with arg1 := v }
  | .cmd => { r with cmd := v }
  | .status => r
  | .result => r

/-- A host read: the write-only registers return 0 (R18). -/
def HostRegs.read (r : HostRegs) (reg : HostReg) : Word :=
  match reg with
  | .arg0 => 0
  | .arg1 => 0
  | .cmd => 0
  | .status => r.status
  | .result => r.result

/-- The state after a host write of register `reg` of unit `u`. -/
def State.hostWrite (s : State) (u : UnitId) (reg : HostReg) (v : Word) : State :=
  s.withRegs u ((s.regs u).write reg v)

/-- The state after a host read of register `reg` of unit `u`. -/
def State.hostRead (s : State) (u : UnitId) (reg : HostReg) : State :=
  { s with readData := (s.regs u).read reg }

/-- An illegal command ends at once with `(ILLEGAL_COMMAND, 0)` (R54, R125). -/
def State.illegalCommand (s : State) (u : UnitId) : State :=
  s.withRegs u ((s.regs u).report (raise .illegalCommand))

/-- The reset input of a unit: the table of R23 for that unit, no transaction, the other unit untouched (R140, R141). -/
def State.resetUnit (s : State) (u : UnitId) : State :=
  match u with
  | .bw => { s with bw := BwUnit.reset }
  | .br => { s with br := BrUnit.reset }

end Sys2Proof.Machine
end

