-- ==== Sys2Proof/Machine/Issue.lean ====
section
/-! DEFINITION. Issuing a command (30_encoding.md R55) and the effect of one event from outside. -/

namespace Sys2Proof.Machine

/-- The host writes word `w` to `CMD` of unit `u` (R55). A unit whose command never completes "accepts no further
command" (R151): the write has no effect then (DESIGN CHOICE, log entry 3). -/
def issue (u : UnitId) (w : Word) (s : State) : Host.Outcome State Fault Refusal :=
  if s.blocked u then .next s
  else
    match decodeFor u w with
    | .ok i => exec i (s.hostWrite u .cmd w)
    | .error _ => .next ((s.hostWrite u .cmd w).illegalCommand u)

/-- A host write of a register: of CMD it issues a command (R18, R55). -/
def writeRegister (u : UnitId) (reg : HostReg) (v : Word) (s : State) : Host.Outcome State Fault Refusal :=
  match reg with
  | .cmd => issue u v s
  | .arg0 | .arg1 | .status | .result => .next (s.hostWrite u reg v)

/-- One event from outside. -/
def runEvent (e : Event) (s : State) : Host.Outcome State Fault Refusal :=
  match e with
  | .write u o v =>
    match HostReg.atOffset o with
    | none => .fault (.noRegister u o)
    | some reg => writeRegister u reg v s
  | .read u o =>
    match HostReg.atOffset o with
    | none => .fault (.noRegister u o)
    | some reg => .next (s.hostRead u reg)
  | .writeAt a v =>
    match s.map.locate a with
    | none => .fault (.noRegisterAt a)
    | some (u, reg) => writeRegister u reg v s
  | .readAt a =>
    match s.map.locate a with
    | none => .fault (.noRegisterAt a)
    | some (u, reg) => .next (s.hostRead u reg)
  | .reset u => .next (s.resetUnit u)
  | .attachSink d => .next { s with sink := { s.sink with device := d } }
  | .attachSource d => .next { s with source := { s.source with device := d } }
  | .storeBuffer u a v => .next { s with buffer := s.buffer.write u a.toNat v }

/-- The event that issues command word `w` of a table row: a write of `CMD` of the unit its opcode names (R52). -/
def issueEvent (w : Word) : Event :=
  .write (if (opcField w).extractLsb' 4 4 = 2 then .br else .bw) HostReg.cmd.offset w

/-- The state with unit `u` free to take a command. -/
def State.ready (s : State) (u : UnitId) : State :=
  match u with
  | .bw => { s with bw := { s.bw with awaiting := none } }
  | .br => { s with br := { s.br with awaiting := none } }

/-- The unit an event names, if it is a register access by unit and offset. -/
def Event.target : Event → Option UnitId
  | .write u _ _ | .read u _ => some u
  | .writeAt _ _ | .readAt _ | .reset _ | .attachSink _ | .attachSource _ | .storeBuffer _ _ _ => none

end Sys2Proof.Machine
end

