-- ==== Sys2Proof/Machine/Step.lean ====
section
/-! DEFINITION. One step: the next event from outside takes effect. There is no program counter and no fetch
(10_state.md R11): the events the host has ready stand where a program would (log entry 1). -/

namespace Sys2Proof.Machine

/-- One step: with no event the units are idle and keep their state (R11, R134). -/
def step (s : State) : Host.Outcome State Fault Refusal :=
  match s.host with
  | [] => .next s
  | e :: rest => runEvent e { s with host := rest }

/-- `s` with the command word `w` as the very next event, written to `CMD` of the unit its opcode names, and that unit
free to take it. ARG0 and ARG1 stay as they are: they are the operands (R50). -/
def State.withFetchWord (s : State) (nbits w : Nat) : State :=
  let e := issueEvent (BitVec.ofNat 32 (w % 2 ^ nbits))
  let t := match e.target with
    | some u => s.ready u
    | none => s
  { t with host := e :: s.host }

end Sys2Proof.Machine
end

