-- ==== Sys2Proof/Safety.lean ====
section
/-! DEFINITION. The terms the statements use: the legal states the spec describes, the bit strings that stand for the
streams, what a willing sink and a supplying source are, and runs of several commands. -/

namespace Sys2Proof.Machine

/-! ## Legal states -/

/-- The bits below the valid ones are zero (10_state.md R13(b), R15(b)). -/
abbrev Accum.lowZero (a : Accum) : Prop := ∀ j, j < 8 - a.occ → a.buf.getLsbD j = false

/-- A legal accumulator: `0 <= occ <= 8` and zero low bits (R13(a), (b)). -/
abbrev Accum.legal (a : Accum) : Prop := a.occ ≤ 8 ∧ a.lowZero

/-- A legal accumulator that is not full: BR's at a command boundary, and the snapshot (R15(c), R16). -/
abbrev Accum.atRest (a : Accum) : Prop := a.occ ≤ 7 ∧ a.lowZero

/-- A register block the hardware can hold: codes 5 to 7 "never produced", bits 31 to 3 "read as 0" (R19), and
RESULT is 0 unless CODE is OK (R20). -/
abbrev HostRegs.legal (r : HostRegs) : Prop := r.status.toNat ≤ 4 ∧ (r.status ≠ 0 → r.result = 0)

/-- What every step keeps: both accumulators and the snapshot legal, both register blocks legal, the buffer space in
canonical form. -/
abbrev State.Inv (s : State) : Prop :=
  s.bw.acc.legal ∧ s.br.acc.atRest ∧ s.br.snap.atRest ∧ s.bw.regs.legal ∧ s.br.regs.legal ∧ s.buffer.wf

/-! ## Responses -/

/-- The unit's command ended with the response `(c, v)` (R7, R55). -/
abbrev State.answered (s : State) (u : UnitId) (c : Code) (v : Word) : Prop :=
  s.blocked u = false ∧ (s.regs u).status = statusWord c ∧ (s.regs u).result = v

/-! ## Streams as bit strings (20_memory.md R38) -/

/-- The `n`-bit binary numeral of the low `n` bits of `v`, most significant bit first. -/
def bitsOf : Nat → Nat → List Bool
  | 0, _ => []
  | n + 1, v => v.testBit n :: bitsOf n v

/-- The bits of a byte stream, bit 7 of each byte first (R38). -/
def byteBits (bs : List Byte) : List Bool := bs.flatMap fun b => bitsOf 8 b.toNat

/-- The valid bits of an accumulator, `buf[7 : 8 - occ]`, earliest first (R12, R14). -/
def Accum.pending (a : Accum) : List Bool := bitsOf a.occ (a.buf.toNat >>> (8 - a.occ))

/-- The byte a sink transaction delivered, as the statements count it: that of a `SinkWrite` answered `OK`, which is
appended (R32). Whether the sink took a byte whose `SinkWrite` it answered `IOERR` is the sink's matter, and R32 assumes
nothing either way; that such a byte does not count here is the model's. DESIGN CHOICE, log entry 23: a term of the
statements, read by no instruction. -/
def SinkEvent.accepted (e : SinkEvent) : Option Byte :=
  match e with
  | ⟨.write b, .ok⟩ => some b
  | _ => none

/-- The bytes the sink has accepted, in order (those it answered `OK`: log entry 23). -/
def SinkPort.accepted (p : SinkPort) : List Byte := p.trace.filterMap SinkEvent.accepted

/-- All bits written so far: those the sink accepted, then those pending in the accumulator. -/
def Writer.out (w : Writer) : List Bool := byteBits w.port.accepted ++ w.acc.pending

/-- All bits BW has written so far. -/
def State.outBits (s : State) : List Bool := s.writer.out

/-! ## Environments that answer -/

/-- The sink answers `OK` to the next `m` transactions BW makes before closing it: prepared `OK` replies, or the
reference sink, open, with no failing transaction to come. -/
def SinkPort.willing (p : SinkPort) (m : Nat) : Prop :=
  match p.device with
  | .oracle xs => ∃ ys, xs = List.replicate m (some Ack.ok) ++ ys
  | .reference k => k.isOpen = true ∧ ∀ f ∈ k.failing, f ≤ k.made

/-- The source answers the next `SourceRead()`s with these bytes, in order. -/
def SourcePort.supplies (p : SourcePort) (bs : List Byte) : Prop :=
  match p.device with
  | .oracle xs _ _ => ∃ ys, xs = bs.map (fun b => some (.byte b)) ++ ys
  | .reference k => bs <+: k.bytes.drop k.pos

/-- The source answers the next `SourceRead()`s with these bytes and the one after them with `EOD` (the reference source:
it holds no byte after them). -/
def SourcePort.suppliesThenEnds (p : SourcePort) (bs : List Byte) : Prop :=
  match p.device with
  | .oracle xs _ _ => ∃ ys, xs = bs.map (fun b => some (.byte b)) ++ some .eod :: ys
  | .reference k => bs = k.bytes.drop k.pos

/-- The source answers the next `SourceRead()`s with these bytes and the one after them with `IOERR`. -/
def SourcePort.suppliesThenFails (p : SourcePort) (bs : List Byte) : Prop :=
  match p.device with
  | .oracle xs _ _ => ∃ ys, xs = bs.map (fun b => some (.byte b)) ++ some .ioerr :: ys
  | .reference _ => False

/-- The trace of `SourceRead()`s answered with these bytes. -/
def readEvents (bs : List Byte) : List SourceEvent := bs.map fun b => .read (.byte b)

/-- The trace of `SinkWrite`s of these bytes, each accepted. -/
def writeEvents (bs : List Byte) : List SinkEvent := bs.map fun b => { req := .write b, ack := .ok }

/-- The elements of a transfer: the `length` buffer bytes from `offset` on that unit `u` sees (R37). -/
def BufferSpace.elements (b : BufferSpace) (u : UnitId) (offset length : Nat) : List Byte :=
  (List.range length).map fun i => b.read u (offset + i)

/-! ## Runs of several commands -/

/-- A command with the operands the host puts in ARG0 and ARG1 before it (R57, the triple of R50). -/
structure Call where
  instr : Instr
  arg0 : Word
  arg1 : Word
  deriving DecidableEq, Repr

/-- The state in which the command runs: its operands latched, its word in CMD (R55). -/
def Call.load (c : Call) (s : State) : State :=
  ((s.hostWrite c.instr.unit .arg0 c.arg0).hostWrite c.instr.unit .arg1 c.arg1).hostWrite c.instr.unit .cmd (encode c.instr)

/-- `t` is reached from `s` by running the commands in order, each of them ending with the code `OK`. -/
def RunsOk : List Call → State → State → Prop
  | [], s, t => s = t
  | c :: cs, s, t =>
    ∃ v s', exec c.instr (c.load s) = .next s' ∧ s'.answered c.instr.unit .ok v ∧ RunsOk cs s' t

/-- `t` is reached from `s` by running the commands in order, however each of them ends. -/
def Runs : List Call → State → State → Prop
  | [], s, t => s = t
  | c :: cs, s, t => ∃ s', exec c.instr (c.load s) = .next s' ∧ Runs cs s' t

/-- `t` is reached from `s` by running the commands in order, each ending `(OK, v)` with its `v` of the list. -/
def Returns : List (Call × Word) → State → State → Prop
  | [], s, t => s = t
  | (c, v) :: cs, s, t =>
    ∃ s', exec c.instr (c.load s) = .next s' ∧ s'.answered c.instr.unit .ok v ∧ Returns cs s' t

/-- The bits a writing command contributes to the output stream (40_bitwriter.md R81); `b` is the buffer space. -/
def Call.contribution (b : BufferSpace) (c : Call) : List Bool :=
  match c.instr with
  | .wrbits n => bitsOf n c.arg0.toNat
  | .wrbyte => bitsOf 8 (c.arg0.toNat % 256)
  | .wrbuf => byteBits (b.elements .bw c.arg0.toNat c.arg1.toNat)
  | .wflush | .wclose | .rdbits _ | .rdbyte | .rdbuf | .mark | .reset | .skip => []

/-- The size of the run a reading command takes, for RDBITS and RDBYTE (41_bitreader.md R102). -/
def Call.runLength (c : Call) : Nat :=
  match c.instr with
  | .rdbits n => n
  | .rdbyte => 8
  | .wrbits _ | .wrbyte | .wrbuf | .wflush | .wclose | .rdbuf | .mark | .reset | .skip => 0

/-! ## The opcode map and the causes of an invalid argument, as the spec lists them -/

/-- A row of 30_encoding.md R52. -/
structure OpcodeRow where
  matchBits : Word
  mask : Word
  unit : UnitId
  instr : Nat → Instr

/-- The table of R52. -/
def opcodeMap : List OpcodeRow :=
  [⟨0x10000000, 0xFFFFFF00, .bw, .wrbits⟩,
   ⟨0x11000000, 0xFFFFFFFF, .bw, fun _ => .wrbyte⟩,
   ⟨0x12000000, 0xFFFFFFFF, .bw, fun _ => .wrbuf⟩,
   ⟨0x13000000, 0xFFFFFFFF, .bw, fun _ => .wflush⟩,
   ⟨0x14000000, 0xFFFFFFFF, .bw, fun _ => .wclose⟩,
   ⟨0x20000000, 0xFFFFFF00, .br, .rdbits⟩,
   ⟨0x21000000, 0xFFFFFFFF, .br, fun _ => .rdbyte⟩,
   ⟨0x22000000, 0xFFFFFFFF, .br, fun _ => .rdbuf⟩,
   ⟨0x23000000, 0xFFFFFFFF, .br, fun _ => .mark⟩,
   ⟨0x24000000, 0xFFFFFFFF, .br, fun _ => .reset⟩,
   ⟨0x25000000, 0xFFFFFFFF, .br, fun _ => .skip⟩]

/-- The condition of 60_exceptions.md R122 for a command, with the operands its unit's ARG registers hold. -/
def badArgument (i : Instr) (s : State) : Prop :=
  match i with
  | .wrbits n => n < 1 ∨ n > 32 ∨ s.bw.regs.arg0.toNat > 2 ^ n - 1
  | .rdbits n => n < 1 ∨ n > 32
  | .wrbuf => s.bw.regs.arg0.toNat + s.bw.regs.arg1.toNat > 2 ^ 32
  | .rdbuf => s.br.regs.arg0.toNat + s.br.regs.arg1.toNat > 2 ^ 32
  | .wrbyte | .wflush | .wclose | .rdbyte | .mark | .reset | .skip => False

/-- The state in which a unit's response registers hold a status number and a value, nothing else changed. -/
def State.respond (s : State) (u : UnitId) (status result : Word) : State :=
  s.withRegs u { s.regs u with status := status, result := result }

end Sys2Proof.Machine
end

