-- ==== Sys2Proof/Certificates/Slice0/Obligations.lean ====
section
/-! DEFINITION. The statements for the provers. -/

open Sys2Proof Sys2Proof.Machine

/-! ## Reset, the register block, issuing a command -/

/-- R23: what reset leaves in the two units. -/
def Obligations.ResetLeavesTheStatedValues : Prop :=
  State.reset.bw.acc = { occ := 0, buf := 0x00 } ∧
  State.reset.br.acc = { occ := 0, buf := 0x00 } ∧
  State.reset.br.snap = { occ := 0, buf := 0x00 } ∧
  ∀ u, State.reset.regs u = { arg0 := 0, arg1 := 0, cmd := 0, status := 0, result := 0 }

/-- R140, R141: the reset input of a unit gives that unit the values of R23, makes no transaction, and leaves the other
unit and the environment alone. That a blocked unit is free again is an inference (log entry 17). -/
def Obligations.ResetInputRestoresOneUnit : Prop :=
  ∀ (s : State) (u : UnitId) (rest : List Event), s.host = .reset u :: rest →
    ∃ t, step s = .next t ∧
      t.regs u = { arg0 := 0, arg1 := 0, cmd := 0, status := 0, result := 0 } ∧ t.blocked u = false ∧
      (u = .bw → t.bw.acc = { occ := 0, buf := 0x00 } ∧ t.br = s.br) ∧
      (u = .br → t.br.acc = { occ := 0, buf := 0x00 } ∧ t.br.snap = { occ := 0, buf := 0x00 } ∧ t.bw = s.bw) ∧
      t.sink = s.sink ∧ t.source = s.source ∧ t.buffer = s.buffer ∧ t.map = s.map ∧ t.readData = s.readData ∧ t.host = rest

/-- R18: what a host write of a register other than CMD, and a host read, do at each offset of a unit's block. The word
read is in `readData`, the model's own field (log entry 9). That a unit which waits for ever still takes these accesses is
the model's inference (log entry 21). -/
def Obligations.HostRegisterAccesses : Prop :=
  ∀ (s : State) (u : UnitId) (rest : List Event) (v : Word),
    (s.host = .write u 0x00 v :: rest →
      step s = .next (({ s with host := rest } : State).withRegs u { s.regs u with arg0 := v })) ∧
    (s.host = .write u 0x04 v :: rest →
      step s = .next (({ s with host := rest } : State).withRegs u { s.regs u with arg1 := v })) ∧
    (∀ o, o = 0x0C ∨ o = 0x10 → s.host = .write u o v :: rest → step s = .next { s with host := rest }) ∧
    (∀ o, o = 0x00 ∨ o = 0x04 ∨ o = 0x08 → s.host = .read u o :: rest →
      step s = .next { s with host := rest, readData := 0 }) ∧
    (s.host = .read u 0x0C :: rest → step s = .next { s with host := rest, readData := (s.regs u).status }) ∧
    (s.host = .read u 0x10 :: rest → step s = .next { s with host := rest, readData := (s.regs u).result })

/-- R55: a write of CMD to a unit that is free decodes the word for that unit, and either runs the command on the
operands ARG0 and ARG1 hold then, or responds `(ILLEGAL_COMMAND, 0)`. That an illegal word is latched in CMD too is the
model's inference (log entry 18). -/
def Obligations.StepRunsTheDecodedCommand : Prop :=
  ∀ (s : State) (u : UnitId) (w : Word) (rest : List Event),
    s.host = .write u 0x08 w :: rest → s.blocked u = false →
      (∀ i, decodeFor u w = .ok i →
        step s = exec i (({ s with host := rest } : State).withRegs u { s.regs u with cmd := w })) ∧
      (∀ e, decodeFor u w = .error e →
        step s = .next ((({ s with host := rest } : State).withRegs u { s.regs u with cmd := w }).respond u 4 0))

/-- R11: with nothing from the host the machine stays as it is. -/
def Obligations.IdleMachineKeepsItsState : Prop :=
  ∀ s : State, s.host = [] → step s = .next s

/-- R127: no command faults or is refused; the only fault is a host access, at an offset where R18 places no register
(log entry 8) or at an address that is not the address of a register of one unit alone (log entry 24). -/
def Obligations.NoCommandStopsTheMachine : Prop :=
  (∀ (i : Instr) (s : State), ∃ t, exec i s = .next t) ∧
  (∀ (s : State) (r : Refusal), step s ≠ .refused r) ∧
  (∀ (s : State) (f : Fault), step s = .fault f →
    (∃ u o, f = .noRegister u o ∧ o ∉ [(0x00 : Word), 0x04, 0x08, 0x0C, 0x10] ∧
      ∃ rest, s.host = .read u o :: rest ∨ ∃ v, s.host = .write u o v :: rest) ∨
    (∃ a, f = .noRegisterAt a ∧
      (¬ ∃ u, (∃ reg : HostReg, a = s.map.base u + reg.offset.toNat) ∧
        ∀ (x : UnitId) (reg : HostReg), a = s.map.base x + reg.offset.toNat → x = u) ∧
      ∃ rest, s.host = .readAt a :: rest ∨ ∃ v, s.host = .writeAt a v :: rest))

/-- R121: raising an error kind writes its code into STATUS and 0 into RESULT, and records nothing else; the code of OK
is 0. -/
def Obligations.StatusCodesAreNumbered : Prop :=
  statusWord .ok = 0 ∧
  ∀ r : HostRegs,
    r.report (raise .invalidArgument) = { r with status := 1, result := 0 } ∧
    r.report (raise .endOfStream) = { r with status := 2, result := 0 } ∧
    r.report (raise .ioError) = { r with status := 3, result := 0 } ∧
    r.report (raise .illegalCommand) = { r with status := 4, result := 0 }

/-- R42(b), R151: a command whose unit is free after it has had every request of it answered; one whose unit is not has
exactly one request that was never answered, and no response. MARK and RESET, which make one request each, wait for its
answer (that a mark may go unanswered is an inference, log entry 13). A unit that waits accepts no further command; that the
write of CMD then has no effect is the model's choice (log entry 3). -/
def Obligations.UnansweredTransactionBlocksTheUnit : Prop :=
  (∀ (i : Instr) (s t : State), exec i s = .next t →
    (t.blocked i.unit = false →
      t.sink.asked + s.sink.trace.length = s.sink.asked + t.sink.trace.length ∧
      t.source.asked + s.source.trace.length = s.source.asked + t.source.trace.length) ∧
    (t.blocked i.unit = true →
      t.regs i.unit = s.regs i.unit ∧
      t.sink.asked + s.sink.trace.length = s.sink.asked + t.sink.trace.length + (if i.unit = .bw then 1 else 0) ∧
      t.source.asked + s.source.trace.length = s.source.asked + t.source.trace.length + (if i.unit = .br then 1 else 0))) ∧
  (∀ (s : State) (p : SourcePort), sourceMark s.br.regs.arg0 s.source = (none, p) →
    ∃ t, exec .mark s = .next t ∧ t.br.awaiting = some (.mark s.br.regs.arg0) ∧ t.source = p) ∧
  (∀ (s : State) (p : SourcePort), sourceReset s.source = (none, p) →
    ∃ t, exec .reset s = .next t ∧ t.br.awaiting = some .reset ∧ t.br.acc = s.br.acc ∧ t.source = p) ∧
  (∀ (s : State) (u : UnitId) (w : Word) (rest : List Event),
    s.host = .write u 0x08 w :: rest → s.blocked u = true → step s = .next { s with host := rest })

/-! ## Encoding -/

/-- R52: the rows of the opcode map are disjoint, and a word decodes to the row it matches, with `n` its low byte. -/
def Obligations.DecodeFollowsTheOpcodeMap : Prop :=
  (∀ (w : Word) (i : Instr),
    decode w = .ok i ↔ ∃ r ∈ opcodeMap, w &&& r.mask = r.matchBits ∧ i = r.instr (w &&& 0xFF).toNat ∧ i.unit = r.unit) ∧
  opcodeMap.Pairwise (fun a b => ∀ w : Word, ¬ (w &&& a.mask = a.matchBits ∧ w &&& b.mask = b.matchBits))

/-- R125, R54: a word is illegal for a unit in exactly the listed cases, and an illegal word written to CMD changes
nothing but the CMD latch and the response, `(ILLEGAL_COMMAND, 0)`. A count outside 1 to 32 is none of the cases. That the
word is latched in CMD is the model's inference, no rule's (log entry 18). -/
def Obligations.IllegalWordsAreRejected : Prop :=
  ∀ (u : UnitId) (w : Word),
    ((∃ e, decodeFor u w = .error e) ↔
      ((opcField w).toNat ∉ [0x10, 0x11, 0x12, 0x13, 0x14, 0x20, 0x21, 0x22, 0x23, 0x24, 0x25] ∨
        rsvField w ≠ 0 ∨
        (nField w ≠ 0 ∧ (opcField w).toNat ≠ 0x10 ∧ (opcField w).toNat ≠ 0x20) ∨
        (u = .bw ∧ (opcField w).toNat / 16 = 2) ∨ (u = .br ∧ (opcField w).toNat / 16 = 1))) ∧
    ∀ (s : State) (rest : List Event), s.host = .write u 0x08 w :: rest → s.blocked u = false →
      (∃ e, decodeFor u w = .error e) →
      step s = .next ((({ s with host := rest } : State).withRegs u { s.regs u with cmd := w }).respond u 4 0)

/-- Decoding an encoded command gives it back, with every count the field holds. -/
def Obligations.DecodeOfEncodeIsTheCommand : Prop :=
  ∀ i : Instr, i.wellFormed = true → decode (encode i) = .ok i ∧ decodeFor i.unit (encode i) = .ok i

/-- A word that decodes is the encoding of what it decodes to: no bit of it is dropped. -/
def Obligations.EncodeOfDecodeIsTheWord : Prop :=
  ∀ (w : Word) (i : Instr), decode w = .ok i → encode i = w ∧ i.wellFormed = true

/-- Words written out from R51 and R52. -/
def Obligations.WrittenOutWordsDecode : Prop :=
  decodeFor .bw 0b00010000_00000000_00000000_00000011#32 = .ok (.wrbits 3) ∧
  decodeFor .bw 0b00010001_00000000_00000000_00000000#32 = .ok .wrbyte ∧
  decodeFor .bw 0b00010100_00000000_00000000_00000000#32 = .ok .wclose ∧
  decodeFor .br 0b00100000_00000000_00000000_00100001#32 = .ok (.rdbits 33) ∧
  decodeFor .br 0b00100011_00000000_00000000_00000000#32 = .ok .mark ∧
  decodeFor .br 0b00100101_00000000_00000000_00000000#32 = .ok .skip

/-! ## Whole-machine rules -/

/-- The state after reset is legal. -/
def Obligations.LegalStateAtReset : Prop := State.reset.Inv

/-- R13(a), (b), R15, R16, R19, R20, R37: every step, whatever the event and whatever the environment answers, keeps both
accumulators and the snapshot legal, the status codes in range, RESULT zero beside an error, and the buffer space in its
canonical form. -/
def Obligations.EveryStepKeepsTheStateLegal : Prop :=
  ∀ s t : State, s.Inv → step s = .next t → t.Inv

/-- R122: exactly the listed conditions raise INVALID_ARGUMENT, and then nothing else happens. -/
def Obligations.InvalidArgumentCauses : Prop :=
  ∀ (i : Instr) (s : State), s.blocked i.unit = false →
    (badArgument i s → exec i s = .next (s.respond i.unit 1 0)) ∧
    (¬ badArgument i s → ∃ t, exec i s = .next t ∧ ∀ v, ¬ t.answered i.unit .invalidArgument v)

/-- R123: a command that completes reports END_OF_STREAM exactly when it is RDBITS and a refill of it was answered EOD; in
RDBYTE, RDBUF and SKIP such an answer is turned into the sentinel or a short count, with the code OK. -/
def Obligations.EndOfStreamCauses : Prop :=
  ∀ (i : Instr) (s t : State), exec i s = .next t → t.blocked i.unit = false →
    ∃ rs, t.source.trace = s.source.trace ++ rs ∧
      ((t.regs i.unit).status = 2 ↔ (∃ n, i = .rdbits n) ∧ .read .eod ∈ rs) ∧
      (.read .eod ∈ rs → (∀ n, i ≠ .rdbits n) →
        (t.regs i.unit).status = 0 ∧
        (i = .rdbyte → t.br.regs.result = 0xFFFFFFFF) ∧
        (i = .rdbuf → t.br.regs.result = 0xFFFFFFFF ∨ t.br.regs.result.toNat < s.br.regs.arg1.toNat) ∧
        (i = .skip → t.br.regs.result.toNat < s.br.regs.arg0.toNat))

/-- R124: a BW command reports IO_ERROR exactly when the sink answered `IOERR` to one of its transactions, a BR command
exactly when the source did; and of the commands that do, WFLUSH and MARK are none. That RDBYTE swallows no `IOERR` is the
parameter RDBYTE_SWALLOWS_IOERR at its default (R5; log entry 6). -/
def Obligations.IoErrorCauses : Prop :=
  ∀ (i : Instr) (s t : State), exec i s = .next t → t.blocked i.unit = false →
    ∃ ws rs, t.sink.trace = s.sink.trace ++ ws ∧ t.source.trace = s.source.trace ++ rs ∧
      ((t.regs i.unit).status = 3 ↔ (∃ e ∈ ws, e.ack = .ioerr) ∨ .read .ioerr ∈ rs ∨ .reset .ioerr ∈ rs) ∧
      ((i = .wflush ∨ i = .mark) → (t.regs i.unit).status = 0)

/-- R47: a BW command leaves the reader, the source and the buffer space as they were, and everything of its own unit
that the spec does not name: the operand and command registers, and for WFLUSH and WCLOSE the accumulator. The sink's
trace only grows; WFLUSH makes no transaction. -/
def Obligations.WriterCommandsFrame : Prop :=
  ∀ (i : Instr) (s t : State), i.unit = .bw → exec i s = .next t →
    t.br = s.br ∧ t.source = s.source ∧ t.buffer = s.buffer ∧ t.map = s.map ∧ t.host = s.host ∧ t.readData = s.readData ∧
    t.bw.regs.arg0 = s.bw.regs.arg0 ∧ t.bw.regs.arg1 = s.bw.regs.arg1 ∧ t.bw.regs.cmd = s.bw.regs.cmd ∧
    s.sink.trace <+: t.sink.trace ∧
    ((i = .wflush ∨ i = .wclose) → t.bw.acc = s.bw.acc) ∧ (i = .wflush → t.sink = s.sink) ∧
    ∀ (u : UnitId) (a : Nat), t.buffer.read u a = s.buffer.read u a

/-- R47: a BR command leaves the writer and the sink as they were, and everything of its own unit that the spec does not
name: the operand and command registers, the snapshot but for MARK, the accumulator for MARK. Memory changes only by
RDBUF, only in the bytes of its transfer, from ARG0 on and ARG1 of them; every other byte, seen by either unit, reads as
before. -/
def Obligations.ReaderCommandsFrame : Prop :=
  ∀ (i : Instr) (s t : State), i.unit = .br → s.buffer.wf → exec i s = .next t →
    t.bw = s.bw ∧ t.sink = s.sink ∧ t.map = s.map ∧ t.host = s.host ∧ t.readData = s.readData ∧
    t.br.regs.arg0 = s.br.regs.arg0 ∧ t.br.regs.arg1 = s.br.regs.arg1 ∧ t.br.regs.cmd = s.br.regs.cmd ∧
    s.source.trace <+: t.source.trace ∧
    (i ≠ .mark → t.br.snap = s.br.snap) ∧ (i = .mark → t.br.acc = s.br.acc) ∧
    (i ≠ .rdbuf → t.buffer = s.buffer) ∧
    ∀ (u : UnitId) (a : Nat),
      (i = .rdbuf → a < s.br.regs.arg0.toNat ∨ s.br.regs.arg0.toNat + s.br.regs.arg1.toNat ≤ a) →
      t.buffer.read u a = s.buffer.read u a

/-- R47: the units do not communicate: a BW command and a BR command give the same state in either order, but for the
pair WRBUF and RDBUF, which may meet in the buffer space. -/
def Obligations.UnitsDoNotCommunicate : Prop :=
  ∀ (i j : Instr) (s s₁ s₂ : State), i.unit = .bw → j.unit = .br → (i = .wrbuf → j ≠ .rdbuf) →
    exec i s = .next s₁ → exec j s = .next s₂ → ∃ t, exec j s₁ = .next t ∧ exec i s₂ = .next t

/-- R56: five passes carry every run, of either unit: more change nothing. -/
def Obligations.FivePassesCarryEveryRun : Prop :=
  (∀ (k value n : Nat) (w : Writer), 5 ≤ k → n ≤ 32 → w.acc.legal → writeLoop k value n w = writeLoop 5 value n w) ∧
  (∀ (k n result : Nat) (r : Reader), 5 ≤ k → n ≤ 32 → r.acc.atRest → readLoop k n result r = readLoop 5 n result r)

/-! ## The BitWriter unit -/

/-- R70, R72: with a sink that answers, WRBITS appends the low `n` bits of ARG0, most significant first, whatever the
bit position, emits exactly the bytes that are completed, and leaves fewer than eight bits. -/
def Obligations.WrbitsAppendsTheRun : Prop :=
  ∀ (n : Nat) (s : State), s.bw.acc.legal → 1 ≤ n → n ≤ 32 → s.bw.regs.arg0.toNat ≤ 2 ^ n - 1 →
    s.sink.willing ((s.bw.acc.occ + n) / 8) →
    ∃ t bs, exec (.wrbits n) s = .next t ∧ t.answered .bw .ok 0 ∧
      t.outBits = s.outBits ++ bitsOf n s.bw.regs.arg0.toNat ∧
      t.sink.trace = s.sink.trace ++ writeEvents bs ∧
      bs.length = (s.bw.acc.occ + n) / 8 ∧
      t.bw.acc.occ = (s.bw.acc.occ + n) % 8 ∧ t.bw.acc.legal

/-- R74: when the sink refuses a byte, WRBITS ends with `(IO_ERROR, 0)` at once: that was its last transaction, the
accumulator is full of the refused byte, earlier bytes stay emitted, and the appended bits are the first of the run. A
refused byte is counted as pending, not as delivered: the model's choice, which R32 leaves open (log entry 23). -/
def Obligations.WrbitsRefusedByteIsKept : Prop :=
  ∀ (n : Nat) (s t : State), s.bw.acc.legal → ¬ badArgument (.wrbits n) s → exec (.wrbits n) s = .next t →
    (∃ e ∈ t.sink.trace.drop s.sink.trace.length, e.ack = .ioerr) →
    t.answered .bw .ioError 0 ∧ t.bw.acc.occ = 8 ∧
    (∃ bs : List Byte, t.sink.trace = s.sink.trace ++ writeEvents bs ++
      [{ req := .write t.bw.acc.buf, ack := .ioerr }]) ∧
    ∃ j, j ≤ n ∧ t.outBits = s.outBits ++ (bitsOf n s.bw.regs.arg0.toNat).take j

/-- R73: entered with a full accumulator, a valid WRBITS presents the pending byte first: accepted, the command goes on
as from an empty accumulator; refused, it ends with `(IO_ERROR, 0)` and the accumulator unchanged. An invalid one presents
nothing. -/
def Obligations.FullAccumulatorIsPresentedAgain : Prop :=
  ∀ (n : Nat) (s : State) (b : Byte) (p : SinkPort), s.blocked .bw = false → s.bw.acc = { occ := 8, buf := b } →
    (badArgument (.wrbits n) s → exec (.wrbits n) s = .next (s.respond .bw 1 0)) ∧
    (¬ badArgument (.wrbits n) s → sinkTransact (.write b) s.sink = (some .ok, p) →
      exec (.wrbits n) s =
        exec (.wrbits n) { s with bw := { s.bw with acc := { occ := 0, buf := 0x00 } }, sink := p }) ∧
    (¬ badArgument (.wrbits n) s → sinkTransact (.write b) s.sink = (some .ioerr, p) →
      exec (.wrbits n) s = .next (({ s with sink := p } : State).respond .bw 3 0))

/-- R13(c): the accumulator is full after a BW command that began with it not full only when the command has just failed
with IO_ERROR on the byte it holds, or (R151) waits for that byte's answer. -/
def Obligations.FullAccumulatorOnlyAfterAFailedEmission : Prop :=
  ∀ (i : Instr) (s t : State), i.unit = .bw → s.bw.acc.atRest → exec i s = .next t →
    t.bw.acc.occ ≤ 7 ∨
    (t.bw.acc.occ = 8 ∧
      ((t.answered .bw .ioError 0 ∧ ∃ es, t.sink.trace = s.sink.trace ++ es ++ [{ req := .write t.bw.acc.buf, ack := .ioerr }]) ∨
        t.bw.awaiting = some (.write t.bw.acc.buf)))

/-- R75, R58: WRBYTE is WRBITS of the low byte of ARG0 and eight bits, in state, transactions and response. -/
def Obligations.WrbyteIsAnEightBitRun : Prop :=
  ∀ s : State, ∃ t,
    exec (.wrbits 8) (s.withRegs .bw { s.bw.regs with arg0 := s.bw.regs.arg0 &&& 0xFF }) = .next t ∧
    exec .wrbyte s = .next (t.withRegs .bw { t.bw.regs with arg0 := s.bw.regs.arg0 })

/-- R75: with a sink that answers, WRBYTE makes exactly one transaction from any bit position, and appends the eight bits
of the low byte of ARG0; nothing is realigned. -/
def Obligations.WrbyteAppendsOneByte : Prop :=
  ∀ s : State, s.bw.acc.atRest → s.sink.willing 1 →
    ∃ t b, exec .wrbyte s = .next t ∧ t.answered .bw .ok 0 ∧
      t.outBits = s.outBits ++ bitsOf 8 (s.bw.regs.arg0.toNat % 256) ∧
      t.sink.trace = s.sink.trace ++ [{ req := .write b, ack := .ok }] ∧
      t.bw.acc.occ = s.bw.acc.occ

/-- R76: a WRBUF of length 0 does nothing and ends `(OK, 0)`, whatever the sink; with a sink that answers, WRBUF appends
the ARG1 buffer bytes from ARG0 on, in rising order, eight bits each. -/
def Obligations.WrbufAppendsItsElements : Prop :=
  ∀ s : State,
    (s.bw.regs.arg1 = 0 → s.blocked .bw = false → exec .wrbuf s = .next (s.respond .bw 0 0)) ∧
    (s.bw.acc.legal → s.bw.regs.arg0.toNat + s.bw.regs.arg1.toNat ≤ 2 ^ 32 →
      s.sink.willing (s.bw.regs.arg1.toNat + 1) →
      ∃ t, exec .wrbuf s = .next t ∧ t.answered .bw .ok 0 ∧
        t.outBits = s.outBits ++ byteBits (s.buffer.elements .bw s.bw.regs.arg0.toNat s.bw.regs.arg1.toNat) ∧
        (s.bw.acc.occ ≤ 7 → t.bw.acc.occ = s.bw.acc.occ))

/-- R126, R43: however a valid writing command ends, what it appended is a first part of its run or of its elements, and
all of it when it ends OK: there is no rollback and nothing is appended out of order. A refused byte is counted as pending,
not as delivered: the model's choice, which R32 leaves open (log entry 23). -/
def Obligations.WritingCommandsAppendAPrefix : Prop :=
  ∀ (c : Call) (s t : State), s.bw.acc.legal →
    ((∃ n, c.instr = .wrbits n) ∨ c.instr = .wrbyte ∨ c.instr = .wrbuf) → ¬ badArgument c.instr (c.load s) →
    exec c.instr (c.load s) = .next t →
    t.bw.acc.legal ∧ ∃ j, t.outBits = s.outBits ++ (c.contribution s.buffer).take j ∧
      (t.answered .bw .ok 0 → (c.contribution s.buffer).length ≤ j)

/-- R77: WFLUSH responds `(OK, 0)` and does nothing else. -/
def Obligations.WflushDoesNothing : Prop :=
  ∀ s : State, s.blocked .bw = false → exec .wflush s = .next (s.respond .bw 0 0)

/-- R78, R79: WCLOSE attempts the pending byte if there is one, the flush and the close, in that order and whatever the
earlier answers; it reports IO_ERROR exactly when one of them failed; it does not write the accumulator. Where a
transaction is never answered, the ones before it were made and it has no response (log entry 12). -/
def Obligations.WcloseAttemptsEveryStep : Prop :=
  ∀ (s t : State), exec .wclose s = .next t →
    t.bw.acc = s.bw.acc ∧
    ∃ acks : List Ack,
      t.sink.trace = s.sink.trace ++
        ((if s.bw.acc.occ > 0 then [SinkReq.write s.bw.acc.buf, .flush, .close] else [.flush, .close]).zip acks).map
          (fun x => { req := x.1, ack := x.2 }) ∧
      (t.blocked .bw = false →
        acks.length = (if s.bw.acc.occ > 0 then 3 else 2) ∧
        t.answered .bw (if .ioerr ∈ acks then .ioError else .ok) 0) ∧
      (∀ r, t.bw.awaiting = some r →
        (if s.bw.acc.occ > 0 then [SinkReq.write s.bw.acc.buf, .flush, .close] else [.flush, .close])[acks.length]? = some r)

/-- R78, R48: with a sink that answers, WCLOSE completes, and the sink has then accepted every bit written, followed by
the zero bits that fill the last byte. -/
def Obligations.WcloseDeliversEveryBitPadded : Prop :=
  ∀ s : State, s.bw.acc.legal → s.sink.willing 3 →
    ∃ t, exec .wclose s = .next t ∧ t.answered .bw .ok 0 ∧
      byteBits t.sink.accepted = s.outBits ++ List.replicate ((8 - s.bw.acc.occ % 8) % 8) false

/-- R81 (the spec's own derivation): the writer stream law. From an empty accumulator and a sink that has accepted
nothing, commands that all end OK make the sink receive exactly the whole bytes of the concatenation of their numerals, and
leave the rest of it, left-aligned above zeros, in the accumulator; and a WCLOSE that ends OK delivers it padded with
zeros. -/
def Obligations.WriterStreamLaw : Prop :=
  ∀ (cs : List Call) (s t : State),
    (∀ c ∈ cs, (∃ n, c.instr = .wrbits n) ∨ c.instr = .wrbyte ∨ c.instr = .wrbuf ∨ c.instr = .wflush) →
    s.bw = BwUnit.reset → s.sink.accepted = [] → RunsOk cs s t →
    (byteBits t.sink.accepted = (cs.flatMap (Call.contribution s.buffer)).take (8 * t.sink.accepted.length) ∧
      t.sink.accepted.length = (cs.flatMap (Call.contribution s.buffer)).length / 8 ∧
      t.bw.acc.occ = (cs.flatMap (Call.contribution s.buffer)).length % 8 ∧
      t.bw.acc.pending = (cs.flatMap (Call.contribution s.buffer)).drop (8 * t.sink.accepted.length) ∧
      t.bw.acc.lowZero) ∧
    ∀ t', exec .wclose t = .next t' → t'.answered .bw .ok 0 →
      byteBits t'.sink.accepted = cs.flatMap (Call.contribution s.buffer) ++
        List.replicate ((8 - (cs.flatMap (Call.contribution s.buffer)).length % 8) % 8) false

/-! ## The BitReader unit -/

/-- R90, R92: with a source that yields enough bytes, RDBITS returns the next `n` bits of the stream, the earliest most
significant, whatever the bit position; it reads exactly the bytes it needs, none ahead (R42(c)), and what is left of the
last one is pending. -/
def Obligations.RdbitsDeliversTheNextBits : Prop :=
  ∀ (n : Nat) (s : State) (bs : List Byte), s.br.acc.atRest → 1 ≤ n → n ≤ 32 → s.source.supplies bs →
    n ≤ s.br.acc.occ + 8 * bs.length →
    ∃ t v, exec (.rdbits n) s = .next t ∧ t.answered .br .ok v ∧ v.toNat < 2 ^ n ∧
      s.br.acc.pending ++ byteBits (bs.take ((n - s.br.acc.occ + 7) / 8)) = bitsOf n v.toNat ++ t.br.acc.pending ∧
      t.source.trace = s.source.trace ++ readEvents (bs.take ((n - s.br.acc.occ + 7) / 8)) ∧
      t.source.supplies (bs.drop ((n - s.br.acc.occ + 7) / 8)) ∧ t.br.acc.atRest

/-- R93, R94: when the source ends, or fails, before the run is complete, RDBITS ends with `(END_OF_STREAM, 0)`, or
`(IO_ERROR, 0)`, after that one refill; what it consumed stays consumed, so the accumulator is `(0, 0x00)`. -/
def Obligations.RdbitsShortOfBitsConsumes : Prop :=
  ∀ (n : Nat) (s : State) (bs : List Byte), s.br.acc.atRest → 1 ≤ n → n ≤ 32 → s.br.acc.occ + 8 * bs.length < n →
    (s.source.suppliesThenEnds bs → ∃ t, exec (.rdbits n) s = .next t ∧ t.answered .br .endOfStream 0 ∧
      t.br.acc = { occ := 0, buf := 0x00 } ∧ t.source.trace = s.source.trace ++ readEvents bs ++ [.read .eod]) ∧
    (s.source.suppliesThenFails bs → ∃ t, exec (.rdbits n) s = .next t ∧ t.answered .br .ioError 0 ∧
      t.br.acc = { occ := 0, buf := 0x00 } ∧ t.source.trace = s.source.trace ++ readEvents bs ++ [.read .ioerr])

/-- R95, R58: RDBYTE is RDBITS of eight bits, with END_OF_STREAM, and nothing else, turned into `(OK, 0xFFFF_FFFF)`. -/
def Obligations.RdbyteIsAnEightBitRunWithSentinel : Prop :=
  ∀ s : State, ∃ t, exec (.rdbits 8) s = .next t ∧
    (t.answered .br .endOfStream 0 → exec .rdbyte s = .next (t.respond .br 0 0xFFFFFFFF)) ∧
    (¬ t.answered .br .endOfStream 0 → exec .rdbyte s = .next t)

/-- R95: with a source that yields a byte, RDBYTE returns the next eight bits, from any bit position. -/
def Obligations.RdbyteReturnsTheNextEightBits : Prop :=
  ∀ (s : State) (b : Byte) (bs : List Byte), s.br.acc.atRest → s.source.supplies (b :: bs) →
    ∃ t v, exec .rdbyte s = .next t ∧ t.answered .br .ok v ∧ v.toNat ≤ 0xFF ∧
      s.br.acc.pending ++ bitsOf 8 b.toNat = bitsOf 8 v.toNat ++ t.br.acc.pending ∧
      t.br.acc.occ = s.br.acc.occ ∧ t.source.trace = s.source.trace ++ [.read (.byte b)] ∧ t.source.supplies bs

/-- R130: what RDBYTE returns with OK is a byte, or it is the sentinel and the source has just answered EOD. That no IOERR
gives the sentinel is the parameter RDBYTE_SWALLOWS_IOERR at its default (R5; log entry 6). -/
def Obligations.SentinelIsNoByte : Prop :=
  ∀ (s t : State) (v : Word), s.br.acc.atRest → exec .rdbyte s = .next t → t.answered .br .ok v →
    v.toNat ≤ 0xFF ∨ (v = 0xFFFFFFFF ∧ ∃ evs, t.source.trace = s.source.trace ++ evs ++ [.read .eod])

/-- R96: with a source that yields enough bytes, RDBUF stores the next ARG1 eight-bit runs from ARG0 on and returns
their count; every other byte of memory reads as before, from either unit; a length of 0 makes no transaction. -/
def Obligations.RdbufFillsTheBuffer : Prop :=
  ∀ (s : State) (bs : List Byte), s.br.acc.atRest → s.buffer.wf →
    s.br.regs.arg0.toNat + s.br.regs.arg1.toNat ≤ 2 ^ 32 → bs.length = s.br.regs.arg1.toNat → s.source.supplies bs →
    ∃ t data, exec .rdbuf s = .next t ∧ t.answered .br .ok s.br.regs.arg1 ∧
      t.buffer.elements .br s.br.regs.arg0.toNat s.br.regs.arg1.toNat = data ∧
      s.br.acc.pending ++ byteBits bs = byteBits data ++ t.br.acc.pending ∧
      t.br.acc.occ = s.br.acc.occ ∧ t.source.trace = s.source.trace ++ readEvents bs ∧
      ∀ (u : UnitId) (a : Nat),
        (a < s.br.regs.arg0.toNat ∨ s.br.regs.arg0.toNat + s.br.regs.arg1.toNat ≤ a) →
        t.buffer.read u a = s.buffer.read u a

/-- R96, R97: when the source ends first, RDBUF returns OK with the count stored, or with the sentinel when not even one
byte came; it stored exactly that many, made exactly one read answered EOD, its last; the bits held at the end are lost.
R94, R126: when the source fails first, the bytes stored stand, the response is `(IO_ERROR, 0)`, that read was its last, and
the bits held are lost too (RDBYTE_SWALLOWS_IOERR at its default: R5, log entry 6). -/
def Obligations.RdbufShortRead : Prop :=
  ∀ (s : State) (bs : List Byte), s.br.acc.atRest → s.buffer.wf →
    s.br.regs.arg0.toNat + s.br.regs.arg1.toNat ≤ 2 ^ 32 → bs.length < s.br.regs.arg1.toNat →
    (s.source.suppliesThenEnds bs →
      ∃ t data lost, exec .rdbuf s = .next t ∧
        t.answered .br .ok (if bs.length = 0 then 0xFFFFFFFF else BitVec.ofNat 32 bs.length) ∧
        t.buffer.elements .br s.br.regs.arg0.toNat bs.length = data ∧
        s.br.acc.pending ++ byteBits bs = byteBits data ++ lost ∧ t.br.acc = { occ := 0, buf := 0x00 } ∧
        t.source.trace = s.source.trace ++ readEvents bs ++ [.read .eod] ∧
        ∀ (u : UnitId) (a : Nat),
          (a < s.br.regs.arg0.toNat ∨ s.br.regs.arg0.toNat + bs.length ≤ a) →
          t.buffer.read u a = s.buffer.read u a) ∧
    (s.source.suppliesThenFails bs →
      ∃ t data lost, exec .rdbuf s = .next t ∧ t.answered .br .ioError 0 ∧
        t.buffer.elements .br s.br.regs.arg0.toNat bs.length = data ∧
        s.br.acc.pending ++ byteBits bs = byteBits data ++ lost ∧ t.br.acc = { occ := 0, buf := 0x00 } ∧
        t.source.trace = s.source.trace ++ readEvents bs ++ [.read .ioerr] ∧
        ∀ (u : UnitId) (a : Nat),
          (a < s.br.regs.arg0.toNat ∨ s.br.regs.arg0.toNat + bs.length ≤ a) →
          t.buffer.read u a = s.buffer.read u a)

/-- R98: MARK saves the accumulator in the snapshot, forwards its limit to the source unchanged, and responds `(OK, 0)`. -/
def Obligations.MarkSavesTheBitPosition : Prop :=
  ∀ (s : State) (p : SourcePort), s.blocked .br = false → sourceMark s.br.regs.arg0 s.source = (some .ok, p) →
    exec .mark s = .next (({ s with br := { s.br with snap := s.br.acc }, source := p } : State).respond .br 0 0) ∧
    p.trace = s.source.trace ++ [.mark s.br.regs.arg0 .ok]

/-- R99, R100: RESET asks the source first; if it accepts, the accumulator is restored from the snapshot, which is kept;
if it refuses, accumulator and snapshot stay as they were and the response is `(IO_ERROR, 0)`. -/
def Obligations.ResetRestoresOrChangesNothing : Prop :=
  ∀ (s : State) (p : SourcePort), s.blocked .br = false →
    (sourceReset s.source = (some .ok, p) →
      exec .reset s = .next (({ s with br := { s.br with acc := s.br.snap }, source := p } : State).respond .br 0 0)) ∧
    (sourceReset s.source = (some .ioerr, p) →
      exec .reset s = .next (({ s with source := p } : State).respond .br 3 0)) ∧
    ∀ a, sourceReset s.source = (some a, p) → p.trace = s.source.trace ++ [.reset a]

/-- R99 (and S5 of 95_test_vectors.md), on the reference source of R36: after MARK, any reading, skipping and resetting
commands, and RESET, the reader stands at the bit position of MARK, so that every RDBITS returns what it would have
returned there. -/
def Obligations.MarkThenResetReturnsToTheBit : Prop :=
  ∀ (cs : List Call) (l : Word) (s t : State) (k : RefSource), s.blocked .br = false →
    s.source.device = .reference k → (∀ c ∈ cs, c.instr.unit = .br ∧ c.instr ≠ .mark) →
    Runs (⟨.mark, l, 0⟩ :: (cs ++ [⟨.reset, 0, 0⟩])) s t →
    t.answered .br .ok 0 ∧ t.br.acc = s.br.acc ∧
    t.source.device = .reference { k with mark := some k.pos } ∧
    ∀ n s' t', exec (.rdbits n) s = .next s' → exec (.rdbits n) t = .next t' →
      t'.br.regs.status = s'.br.regs.status ∧ t'.br.regs.result = s'.br.regs.result ∧ t'.br.acc = s'.br.acc

/-- R101: SKIP discards eight-bit runs and returns how many: ARG0 of them when the source yields them, from any bit
position, with `occ` unchanged; as many as there were when the source ends first, with one read answered EOD, its last, and
no error. R94: when the source fails first, the response is `(IO_ERROR, 0)`, the count is lost, and that read was its last
(RDBYTE_SWALLOWS_IOERR at its default: R5, log entry 6). -/
def Obligations.SkipCountsWhatItDiscards : Prop :=
  ∀ (s : State) (bs : List Byte), s.br.acc.atRest →
    (bs.length = s.br.regs.arg0.toNat → s.source.supplies bs →
      ∃ t gone, exec .skip s = .next t ∧ t.answered .br .ok s.br.regs.arg0 ∧ t.br.acc.occ = s.br.acc.occ ∧
        List.length gone = 8 * bs.length ∧ s.br.acc.pending ++ byteBits bs = gone ++ t.br.acc.pending ∧
        t.source.trace = s.source.trace ++ readEvents bs ∧ t.buffer = s.buffer) ∧
    (bs.length < s.br.regs.arg0.toNat → s.source.suppliesThenEnds bs →
      ∃ t, exec .skip s = .next t ∧ t.answered .br .ok (BitVec.ofNat 32 bs.length) ∧
        t.br.acc = { occ := 0, buf := 0x00 } ∧
        t.source.trace = s.source.trace ++ readEvents bs ++ [.read .eod] ∧ t.buffer = s.buffer) ∧
    (bs.length < s.br.regs.arg0.toNat → s.source.suppliesThenFails bs →
      ∃ t, exec .skip s = .next t ∧ t.answered .br .ioError 0 ∧ t.br.acc = { occ := 0, buf := 0x00 } ∧
        t.source.trace = s.source.trace ++ readEvents bs ++ [.read .ioerr] ∧ t.buffer = s.buffer)

/-- R102 (the spec's own derivation): the reader stream law. From an empty accumulator, RDBITS and RDBYTE commands that
end OK, RDBYTE not with the sentinel, return the consecutive numerals of the bits of the bytes read; as many bytes were
read as those bits need; the unread bits of the last byte are pending, left-aligned above zeros. -/
def Obligations.ReaderStreamLaw : Prop :=
  ∀ (cs : List (Call × Word)) (s t : State),
    (∀ c ∈ cs, (∃ n, c.1.instr = .rdbits n) ∨ (c.1.instr = .rdbyte ∧ c.2 ≠ 0xFFFFFFFF)) →
    s.br = BrUnit.reset → Returns cs s t →
    ∃ bs : List Byte, t.source.trace = s.source.trace ++ readEvents bs ∧
      byteBits bs = cs.flatMap (fun c => bitsOf c.1.runLength c.2.toNat) ++ t.br.acc.pending ∧
      (∀ c ∈ cs, c.2.toNat < 2 ^ c.1.runLength) ∧
      bs.length = ((cs.map (fun c => c.1.runLength)).sum + 7) / 8 ∧
      t.br.acc.occ = (8 - (cs.map (fun c => c.1.runLength)).sum % 8) % 8 ∧ t.br.acc.lowZero

/-- R103: the round-trip law. Runs written in order and closed, all ending OK, are read back exactly, by the same counts,
from a source that yields the bytes the sink accepted. -/
def Obligations.RoundTripLaw : Prop :=
  ∀ (ps : List (Nat × Word)) (s t u r : State),
    (∀ p ∈ ps, 1 ≤ p.1 ∧ p.1 ≤ 32 ∧ p.2.toNat < 2 ^ p.1) →
    s.bw = BwUnit.reset → s.sink.accepted = [] →
    RunsOk (ps.map fun p => ⟨.wrbits p.1, p.2, 0⟩) s t →
    exec .wclose t = .next u → u.answered .bw .ok 0 →
    r.br = BrUnit.reset → r.source.supplies u.sink.accepted →
    ∃ r', Returns (ps.map fun p => (⟨.rdbits p.1, 0, 0⟩, p.2)) r r'

/-! ## The ports -/

/-- R32, R34: the transaction-level encoding; the request kind 0b11 is never issued. -/
def Obligations.PortEncodings : Prop :=
  (∀ b, (SinkReq.write b).kind = 0b00 ∧ (SinkReq.write b).data = b) ∧
  SinkReq.flush.kind = 0b01 ∧ SinkReq.flush.data = 0 ∧ SinkReq.close.kind = 0b10 ∧ SinkReq.close.data = 0 ∧
  SourceReq.read.kind = 0b00 ∧ SourceReq.read.arg = 0 ∧ (∀ l, (SourceReq.mark l).kind = 0b01 ∧ (SourceReq.mark l).arg = l) ∧
  SourceReq.reset.kind = 0b10 ∧ SourceReq.reset.arg = 0 ∧
  (∀ r : SinkReq, r.kind ≠ 0b11) ∧ (∀ r : SourceReq, r.kind ≠ 0b11) ∧
  Ack.ok.resp = 0 ∧ Ack.ioerr.resp = 1 ∧ MarkAck.ok.resp = 0 ∧ Ack.ok.sourceResp = 0 ∧ Ack.ioerr.sourceResp = 1 ∧ (∀ b, (ReadAnswer.byte b).resp = 0 ∧ (ReadAnswer.byte b).data = some b) ∧
  ReadAnswer.ioerr.resp = 1 ∧ ReadAnswer.eod.resp = 2

/-- R36: the reference sink appends what it accepts while open, and answers IOERR, appending nothing, once closed or at
a listed ordinal; the reference source delivers its bytes in order, then EOD every time, and rewinds to its mark only. -/
def Obligations.ReferenceEnvironment : Prop :=
  (∀ (k : RefSink) (b : Byte), k.isOpen = true → k.made + 1 ∉ k.failing →
    (k.answer (.write b)).1 = .ok ∧ (k.answer (.write b)).2.out = k.out ++ [b] ∧
    (k.answer .flush).1 = .ok ∧ (k.answer .close).1 = .ok ∧ (k.answer .close).2.isOpen = false) ∧
  (∀ (k : RefSink) (r : SinkReq), k.isOpen = false ∨ k.made + 1 ∈ k.failing →
    (k.answer r).1 = .ioerr ∧ (k.answer r).2.out = k.out) ∧
  (∀ (k : RefSource) (h : k.pos < k.bytes.length),
    k.read.1 = .byte k.bytes[k.pos] ∧ k.read.2 = { k with pos := k.pos + 1 }) ∧
  (∀ k : RefSource, k.bytes.length ≤ k.pos → k.read = (.eod, k)) ∧
  (∀ k : RefSource, k.rewind = match k.mark with
    | some m => (.ok, { k with pos := m })
    | none => (.ioerr, k))

/-! ## The addresses of the register blocks -/

/-- R45, R18: both bases are word-aligned; an access at a unit's base plus a register's offset does what the access of that
register by unit and offset does, unless the platform has put a register of the other unit at the same address (a map the
model stops on, log entry 24); no step moves a block; and no command depends on where the blocks are. -/
def Obligations.HostAddressesReachTheRegisters : Prop :=
  (∀ (s : State) (u : UnitId) (reg : HostReg) (v : Word) (rest : List Event),
    4 ∣ s.map.base u ∧
    ((∀ (x : UnitId) (other : HostReg), s.map.base u + reg.offset.toNat = s.map.base x + other.offset.toNat → x = u) →
      (s.host = .writeAt (s.map.base u + reg.offset.toNat) v :: rest →
        step s = step { s with host := .write u reg.offset v :: rest }) ∧
      (s.host = .readAt (s.map.base u + reg.offset.toNat) :: rest →
        step s = step { s with host := .read u reg.offset :: rest }))) ∧
  (∀ s t : State, step s = .next t → t.map = s.map) ∧
  (∀ (i : Instr) (s t : State) (m : AddressMap), exec i s = .next t →
    exec i { s with map := m } = .next { t with map := m })
end

