-- ==== Sys2Proof/Laws/Bits.lean ====
section
/-! SUPPORT. Bit strings, and the chunk steps of both accumulators as operations on them (40_bitwriter.md R72,
41_bitreader.md R92). -/

namespace Sys2Proof.Machine

@[simp] theorem length_bitsOf (n v : Nat) : (bitsOf n v).length = n := by
  induction n with
  | zero => rfl
  | succ n ih => simp [bitsOf, ih]

theorem bitsOf_congr {n u v : Nat} (h : ∀ j, j < n → u.testBit j = v.testBit j) : bitsOf n u = bitsOf n v := by
  induction n with
  | zero => rfl
  | succ n ih => simp [bitsOf, h n (Nat.lt_succ_self n), ih fun j hj => h j (Nat.lt_succ_of_lt hj)]

/-- A numeral splits into its high part and its low part. -/
theorem bitsOf_add (k m v : Nat) : bitsOf (k + m) v = bitsOf k (v >>> m) ++ bitsOf m v := by
  induction k with
  | zero => simp [bitsOf]
  | succ k ih =>
    rw [Nat.succ_add]
    simp [bitsOf, ← ih, Nat.testBit_shiftRight, Nat.add_comm]

/-- The numeral determines the low bits. -/
theorem testBit_of_bitsOf {n u v : Nat} (h : bitsOf n u = bitsOf n v) : ∀ j, j < n → u.testBit j = v.testBit j := by
  induction n with
  | zero => intro j hj; omega
  | succ n ih =>
    simp only [bitsOf, List.cons.injEq] at h
    intro j hj
    rcases Nat.lt_succ_iff_lt_or_eq.1 hj with hj | rfl
    · exact ih h.2 j hj
    · exact h.1

/-- Two numbers below `2^n` with one `n`-bit numeral are equal. -/
theorem eq_of_bitsOf {n u v : Nat} (hu : u < 2 ^ n) (hv : v < 2 ^ n) (h : bitsOf n u = bitsOf n v) : u = v := by
  refine Nat.eq_of_testBit_eq fun j => ?_
  by_cases hj : j < n
  · exact testBit_of_bitsOf h j hj
  · have hle : 2 ^ n ≤ 2 ^ j := Nat.pow_le_pow_right (by decide) (by omega)
    rw [Nat.testBit_lt_two_pow (hu.trans_le hle), Nat.testBit_lt_two_pow (hv.trans_le hle)]

theorem take_bitsOf {k n : Nat} (h : k ≤ n) (v : Nat) : (bitsOf n v).take k = bitsOf k (v >>> (n - k)) := by
  have hn := bitsOf_add k (n - k) v
  rw [Nat.add_sub_cancel' h] at hn
  rw [hn, List.take_left' (length_bitsOf _ _)]

theorem drop_bitsOf {k n : Nat} (h : k ≤ n) (v : Nat) : (bitsOf n v).drop k = bitsOf (n - k) v := by
  have hn := bitsOf_add k (n - k) v
  rw [Nat.add_sub_cancel' h] at hn
  rw [hn, List.drop_left' (length_bitsOf _ _)]

/-- Appending a `k`-bit chunk below a number appends its numeral. -/
theorem bitsOf_append (n k u c : Nat) (hc : c < 2 ^ k) : bitsOf (n + k) ((u <<< k) ||| c) = bitsOf n u ++ bitsOf k c := by
  rw [bitsOf_add]
  have hck : ∀ j, k ≤ j → c.testBit j = false := fun j hj =>
    Nat.testBit_lt_two_pow (hc.trans_le (Nat.pow_le_pow_right (by decide) hj))
  congr 1
  · refine bitsOf_congr fun j _ => ?_
    simp [Nat.testBit_shiftRight, Nat.testBit_or, Nat.testBit_shiftLeft, hck (k + j) (Nat.le_add_right k j)]
  · refine bitsOf_congr fun j hj => ?_
    simp [Nat.testBit_or, Nat.testBit_shiftLeft, Nat.not_le.2 hj]

theorem byteBits_append (xs ys : List Byte) : byteBits (xs ++ ys) = byteBits xs ++ byteBits ys := by
  simp [byteBits]

@[simp] theorem byteBits_nil : byteBits [] = [] := rfl

theorem byteBits_cons (b : Byte) (bs : List Byte) : byteBits (b :: bs) = bitsOf 8 b.toNat ++ byteBits bs := rfl

@[simp] theorem length_byteBits (bs : List Byte) : (byteBits bs).length = 8 * bs.length := by
  induction bs with
  | nil => rfl
  | cons b bs ih => simp [byteBits_cons, ih]; omega

@[simp] theorem length_pending (a : Accum) : a.pending.length = a.occ := length_bitsOf _ _

theorem pending_full (b : Byte) : (Accum.mk 8 b).pending = bitsOf 8 b.toNat := rfl

theorem pending_of_occ_zero {a : Accum} (h : a.occ = 0) : a.pending = [] := by
  rw [Accum.pending, h]; rfl

/-- An empty legal accumulator is `(0, 0x00)`. -/
theorem Accum.eq_empty {a : Accum} (h : a.lowZero) (h0 : a.occ = 0) : a = Accum.empty := by
  obtain ⟨occ, buf⟩ := a
  simp only at h0
  subst h0
  have : buf = 0 := BitVec.eq_of_getLsbD_eq fun j hj => by simpa using h j (by simpa using hj)
  rw [this]; rfl

theorem Accum.empty_atRest : Accum.empty.atRest := by decide

theorem Accum.empty_legal : Accum.empty.legal := by decide

@[simp] theorem Accum.empty_occ : Accum.empty.occ = 0 := rfl

/-! ## The writer's chunk step -/

theorem testBit_chunk (value rem k i : Nat) :
    ((value >>> (rem - k)) &&& mask k).testBit i = (decide (i < k) && value.testBit (rem - k + i)) := by
  rw [mask, Nat.testBit_and, Nat.testBit_two_pow_sub_one, Nat.testBit_shiftRight, Bool.and_comm]

theorem append_getLsbD {a : Accum} (value rem : Nat) {j : Nat} (hj : j < 8) :
    (a.append value rem).buf.getLsbD j =
      (a.buf.getLsbD j || (decide (a.free - a.chunkIn rem ≤ j ∧ j < a.free) &&
        value.testBit (rem - a.chunkIn rem + (j - (a.free - a.chunkIn rem))))) := by
  have hk : a.chunkIn rem ≤ a.free := Nat.min_le_right _ _
  have e : decide (j - (a.free - a.chunkIn rem) < a.chunkIn rem ∧ a.free - a.chunkIn rem ≤ j) =
      decide (a.free - a.chunkIn rem ≤ j ∧ j < a.free) := decide_eq_decide.2 (by omega)
  simp only [Accum.append, BitVec.getLsbD_or, BitVec.getLsbD_ofNat, Nat.testBit_shiftLeft, testBit_chunk, hj,
    decide_true, Bool.true_and]
  rw [← e]
  by_cases h1 : a.free - a.chunkIn rem ≤ j <;>
    by_cases h2 : j - (a.free - a.chunkIn rem) < a.chunkIn rem <;> simp [h1, h2]

theorem append_occ (a : Accum) (value rem : Nat) : (a.append value rem).occ = a.occ + a.chunkIn rem := rfl

/-- The chunk step of R72: the valid bits are followed by the chunk, the first of the unwritten bits of `value`. -/
theorem append_pending {a : Accum} (h : a.legal) (value rem : Nat) :
    (a.append value rem).pending = a.pending ++ (bitsOf rem value).take (a.chunkIn rem) := by
  have hk : a.chunkIn rem ≤ 8 - a.occ := Nat.min_le_right _ _
  have hr : a.chunkIn rem ≤ rem := Nat.min_le_left _ _
  have hf : a.free = 8 - a.occ := rfl
  have hocc := h.1
  rw [take_bitsOf hr, Accum.pending, append_occ, bitsOf_add, Accum.pending]
  congr 1
  · refine bitsOf_congr fun j hj => ?_
    have e : 8 - (a.occ + a.chunkIn rem) + (a.chunkIn rem + j) = 8 - a.occ + j := by omega
    rw [Nat.testBit_shiftRight, Nat.testBit_shiftRight, Nat.testBit_shiftRight, e, BitVec.testBit_toNat,
      append_getLsbD _ _ (by omega : 8 - a.occ + j < 8), BitVec.testBit_toNat, hf]
    simp
  · refine bitsOf_congr fun j hj => ?_
    rw [Nat.testBit_shiftRight, Nat.testBit_shiftRight, BitVec.testBit_toNat,
      append_getLsbD _ _ (by omega : 8 - (a.occ + a.chunkIn rem) + j < 8),
      h.2 _ (by omega : 8 - (a.occ + a.chunkIn rem) + j < 8 - a.occ), Bool.false_or, hf]
    have e : rem - a.chunkIn rem + (8 - (a.occ + a.chunkIn rem) + j - (8 - a.occ - a.chunkIn rem)) =
        rem - a.chunkIn rem + j := by omega
    have e2 : (8 - a.occ - a.chunkIn rem ≤ 8 - (a.occ + a.chunkIn rem) + j ∧
        8 - (a.occ + a.chunkIn rem) + j < 8 - a.occ) := by omega
    rw [e, decide_eq_true e2, Bool.true_and]

/-- The chunk step keeps the accumulator legal (R72(c), (d)). -/
theorem append_legal {a : Accum} (h : a.legal) (value rem : Nat) : (a.append value rem).legal := by
  have hk : a.chunkIn rem ≤ 8 - a.occ := Nat.min_le_right _ _
  have hf : a.free = 8 - a.occ := rfl
  have hocc := h.1
  refine ⟨by rw [append_occ]; omega, fun j hj => ?_⟩
  rw [append_occ] at hj
  rw [append_getLsbD _ _ (by omega), h.2 j (by omega), Bool.false_or, hf]
  simp; omega

/-! ## The reader's chunk step -/

/-- The chunk step of R92: the pending bits are the chunk followed by what stays pending. -/
theorem pending_eq_top_append_drop {a : Accum} (h8 : a.occ ≤ 8) {k : Nat} (hk : k ≤ a.occ) :
    a.pending = bitsOf k (a.top k) ++ (a.drop k).pending := by
  have e := bitsOf_add k (a.occ - k) (a.buf.toNat >>> (8 - a.occ))
  rw [Nat.add_sub_cancel' hk] at e
  rw [Accum.pending, e, Accum.pending]
  congr 1
  · rw [Accum.top, ← Nat.shiftRight_add]
    congr 2
    omega
  · refine bitsOf_congr fun j hj => ?_
    rw [Accum.drop] at *
    simp only at hj ⊢
    rw [Nat.testBit_shiftRight, Nat.testBit_shiftRight, BitVec.testBit_toNat, BitVec.testBit_toNat,
      BitVec.getLsbD_shiftLeft]
    have e1 : 8 - (a.occ - k) + j - k = 8 - a.occ + j := by omega
    have e2 : 8 - (a.occ - k) + j < 8 := by omega
    have e3 : ¬ 8 - (a.occ - k) + j < k := by omega
    simp [e1, e2, e3]

theorem top_lt (a : Accum) (k : Nat) (hk : k ≤ 8) : a.top k < 2 ^ k := by
  have := a.buf.isLt
  rw [Accum.top, Nat.shiftRight_eq_div_pow, Nat.div_lt_iff_lt_mul (by positivity), ← Nat.pow_add]
  rwa [show k + (8 - k) = 8 by omega]

theorem drop_occ (a : Accum) (k : Nat) : (a.drop k).occ = a.occ - k := rfl

theorem drop_lowZero {a : Accum} (h : a.lowZero) {k : Nat} (hk : k ≤ a.occ) : (a.drop k).lowZero := by
  intro j hj
  rw [drop_occ] at hj
  rw [Accum.drop]
  simp only [BitVec.getLsbD_shiftLeft]
  by_cases hjk : j < k
  · simp [hjk]
  · rw [h (j - k) (by omega)]; simp

end Sys2Proof.Machine
end

