-- ==== Sys2Proof/Laws/Ports.lean ====
section
/-! SUPPORT. What one port transaction does: the count, the trace and the accepted bytes (20_memory.md R32, R34). -/

namespace Sys2Proof.Machine

/-! ## The sink port -/

theorem sinkTransact_asked (r : SinkReq) (p : SinkPort) : (sinkTransact r p).2.asked = p.asked + 1 := rfl

theorem sinkTransact_trace {r : SinkReq} {p q : SinkPort} {a : Ack} (h : sinkTransact r p = (some a, q)) :
    q.trace = p.trace ++ [{ req := r, ack := a }] := by
  simp only [sinkTransact, Prod.mk.injEq] at h
  rw [← h.2, h.1]; rfl

theorem sinkTransact_unanswered {r : SinkReq} {p q : SinkPort} (h : sinkTransact r p = (none, q)) :
    q.trace = p.trace := by
  simp only [sinkTransact, Prod.mk.injEq] at h
  rw [← h.2, h.1]; simp

theorem accepted_append {p q : SinkPort} {es : List SinkEvent} (h : q.trace = p.trace ++ es) :
    q.accepted = p.accepted ++ es.filterMap SinkEvent.accepted := by
  rw [SinkPort.accepted, h, List.filterMap_append, SinkPort.accepted]

/-- A willing sink answers `OK`, and is willing for what is left as long as it has not been closed. -/
theorem sinkTransact_willing {p : SinkPort} {m : Nat} (h : p.willing (m + 1)) (r : SinkReq) :
    ∃ q, sinkTransact r p = (some .ok, q) ∧ (r ≠ .close → q.willing m) := by
  obtain ⟨device, asked, trace⟩ := p
  cases device with
  | oracle xs =>
    obtain ⟨ys, rfl⟩ := h
    exact ⟨_, rfl, fun _ => ⟨ys, rfl⟩⟩
  | reference k =>
    obtain ⟨hopen, hfail⟩ := h
    have hn : k.made + 1 ∉ k.failing := fun hm => by have := hfail _ hm; omega
    have hle : ∀ f ∈ k.failing, f ≤ k.made + 1 := fun f hf => (hfail f hf).trans (Nat.le_succ _)
    cases r <;> refine ⟨_, by simp [sinkTransact, SinkDevice.answer, RefSink.answer, hn, hopen]; rfl, ?_⟩
    · exact fun _ => ⟨rfl, hle⟩
    · exact fun _ => ⟨rfl, hle⟩
    · exact fun hc => absurd rfl hc

theorem willing_mono {p : SinkPort} {m n : Nat} (h : p.willing n) (hmn : m ≤ n) : p.willing m := by
  unfold SinkPort.willing at *
  split at h
  · obtain ⟨ys, rfl⟩ := h
    exact ⟨List.replicate (n - m) (some .ok) ++ ys, by
      rw [← List.append_assoc, ← List.replicate_add, Nat.add_sub_cancel' hmn]⟩
  · exact h

/-! ## The source port -/

theorem sourceRead_trace {p q : SourcePort} {a : ReadAnswer} (h : sourceRead p = (some a, q)) :
    q.trace = p.trace ++ [.read a] := by
  simp only [sourceRead, Prod.mk.injEq] at h
  rw [← h.2, h.1]; rfl

theorem sourceRead_unanswered {p q : SourcePort} (h : sourceRead p = (none, q)) : q.trace = p.trace := by
  simp only [sourceRead, Prod.mk.injEq] at h
  rw [← h.2, h.1]; simp

theorem sourceMark_trace {p q : SourcePort} {l : Word} {a : MarkAck} (h : sourceMark l p = (some a, q)) :
    q.trace = p.trace ++ [.mark l a] := by
  simp only [sourceMark, Prod.mk.injEq] at h
  rw [← h.2, h.1]; rfl

theorem sourceReset_trace {p q : SourcePort} {a : Ack} (h : sourceReset p = (some a, q)) :
    q.trace = p.trace ++ [.reset a] := by
  simp only [sourceReset, Prod.mk.injEq] at h
  rw [← h.2, h.1]; rfl

/-- A supplying source answers with its next byte, and supplies the rest. -/
theorem sourceRead_supplies {p : SourcePort} {b : Byte} {bs : List Byte} (h : p.supplies (b :: bs)) :
    ∃ q, sourceRead p = (some (.byte b), q) ∧ q.supplies bs := by
  obtain ⟨device, asked, trace⟩ := p
  cases device with
  | oracle xs ms rs =>
    obtain ⟨ys, rfl⟩ := h
    exact ⟨_, rfl, ys, rfl⟩
  | reference k =>
    obtain ⟨ys, hys⟩ := h
    have hb : k.bytes[k.pos]? = some b := by
      have := congrArg (fun l => l[0]?) hys
      simpa using this.symm
    refine ⟨_, by simp [sourceRead, SourceDevice.read, RefSource.read, hb]; rfl, ?_⟩
    have := congrArg List.tail hys
    exact ⟨ys, by simpa using this⟩

/-- A source that ends after its bytes answers with the next of them, or with `EOD`. -/
theorem sourceRead_suppliesThenEnds {p : SourcePort} {bs : List Byte} (h : p.suppliesThenEnds bs) :
    (∀ b cs, bs = b :: cs → ∃ q, sourceRead p = (some (.byte b), q) ∧ q.suppliesThenEnds cs) ∧
    (bs = [] → ∃ q, sourceRead p = (some .eod, q)) := by
  obtain ⟨device, asked, trace⟩ := p
  cases device with
  | oracle xs ms rs =>
    obtain ⟨ys, rfl⟩ := h
    constructor
    · rintro b cs rfl
      exact ⟨_, rfl, ys, rfl⟩
    · rintro rfl
      exact ⟨_, rfl⟩
  | reference k =>
    have h : bs = k.bytes.drop k.pos := h
    constructor
    · rintro b cs rfl
      have hb : k.bytes[k.pos]? = some b := by
        have := congrArg (fun l => l[0]?) h
        simpa using this.symm
      refine ⟨_, by simp [sourceRead, SourceDevice.read, RefSource.read, hb]; rfl, ?_⟩
      show cs = k.bytes.drop (k.pos + 1)
      have := congrArg List.tail h
      simpa using this
    · rintro rfl
      have hb : k.bytes[k.pos]? = none := by
        have := congrArg (fun l => l[0]?) h
        simpa using this.symm
      exact ⟨_, by simp [sourceRead, SourceDevice.read, RefSource.read, hb]; rfl⟩

/-- A source that fails after its bytes answers with the next of them, or with `IOERR`. -/
theorem sourceRead_suppliesThenFails {p : SourcePort} {bs : List Byte} (h : p.suppliesThenFails bs) :
    (∀ b cs, bs = b :: cs → ∃ q, sourceRead p = (some (.byte b), q) ∧ q.suppliesThenFails cs) ∧
    (bs = [] → ∃ q, sourceRead p = (some .ioerr, q)) := by
  obtain ⟨device, asked, trace⟩ := p
  cases device with
  | oracle xs ms rs =>
    obtain ⟨ys, rfl⟩ := h
    constructor
    · rintro b cs rfl
      exact ⟨_, rfl, ys, rfl⟩
    · rintro rfl
      exact ⟨_, rfl⟩
  | reference k => exact h.elim

end Sys2Proof.Machine
end

