-- ==== Sys2Proof/Laws/Loops.lean ====
section
/-! SUPPORT. What the two chunk loops do, once each: every later fact about a run is derived from `writeLoop_cases` and
`readLoop_cases` (40_bitwriter.md R70 to R74, 41_bitreader.md R90 to R94). -/

namespace Sys2Proof.Machine

/-! ## The writer's loop -/

/-- How a WRBITS loop of `rem` bits of `value` from `w` can stand at its end `x`. -/
structure WriteOutcome (value rem : Nat) (w : Writer) (x : Ending SinkReq × Writer) : Prop where
  legal : x.2.acc.legal
  /-- some first bits of the run have been appended; the trace grew by writes; and either all bits are in, or the last
  write was refused, or it is never answered -/
  cases : ∃ es j, j ≤ rem ∧ x.2.out = w.out ++ (bitsOf rem value).take j ∧
    (∀ e ∈ es, e.ack = .ok ∧ ∃ b, e.req = .write b) ∧
    ((x.1 = .done (Response.ok 0) ∧ j = rem ∧ x.2.port.trace = w.port.trace ++ es ∧
        (rem ≠ 0 → x.2.acc.occ = (w.acc.occ + rem) % 8 ∧ es.length = (w.acc.occ + rem) / 8) ∧
        (rem = 0 → x.2 = w ∧ es = [])) ∨
      (x.1 = .done (raise .ioError) ∧ x.2.acc.occ = 8 ∧
        x.2.port.trace = w.port.trace ++ es ++ [⟨.write x.2.acc.buf, .ioerr⟩]) ∨
      (x.1 = .blocked (.write x.2.acc.buf) ∧ x.2.acc.occ = 8 ∧ x.2.port.trace = w.port.trace ++ es))

theorem out_of_accepted {w w' : Writer} {bs : List Byte} (h : w'.port.accepted = w.port.accepted ++ bs) :
    w'.out = byteBits w.port.accepted ++ (byteBits bs ++ w'.acc.pending) := by
  rw [Writer.out, h, byteBits_append, List.append_assoc]

/-- Every end of the writer's chunk loop, from a legal accumulator and enough passes. -/
theorem writeLoop_cases (fuel value rem : Nat) (w : Writer) (h : w.acc.legal)
    (hf : rem = 0 ∨ w.acc.occ + rem ≤ 8 * fuel) : WriteOutcome value rem w (writeLoop fuel value rem w) := by
  induction fuel generalizing rem w with
  | zero =>
    have : rem = 0 := by omega
    subst this
    exact ⟨h, [], 0, le_rfl, by simp [writeLoop], by simp, .inl ⟨rfl, rfl, by simp [writeLoop], by simp, fun _ => ⟨rfl, rfl⟩⟩⟩
  | succ fuel ih =>
    unfold writeLoop
    split
    · rename_i h0
      subst h0
      exact ⟨h, [], 0, le_rfl, by simp, by simp, .inl ⟨rfl, rfl, by simp, by simp, fun _ => ⟨rfl, rfl⟩⟩⟩
    · rename_i h0
      have hr : w.acc.chunkIn rem ≤ rem := Nat.min_le_left _ _
      have hk : w.acc.chunkIn rem = min rem (8 - w.acc.occ) := rfl
      have hpend := append_pending h value rem
      have hleg := append_legal h value rem
      have hocc := append_occ w.acc value rem
      have h8 := h.1
      simp only
      split
      · rename_i hfull
        have hbyte : (w.acc.append value rem).pending = bitsOf 8 (w.acc.append value rem).buf.toNat := by
          rw [Accum.pending, hfull]; rfl
        split
        · rename_i p hp
          have ht := sinkTransact_trace hp
          have hacc : p.accepted = w.port.accepted ++ [(w.acc.append value rem).buf] := by
            rw [accepted_append ht]; rfl
          obtain ⟨hl, es, j, hj, hout, hes, hcases⟩ := ih (rem - w.acc.chunkIn rem) ⟨Accum.empty, p⟩ Accum.empty_legal
            (by rw [Accum.empty_occ]; omega)
          have hout0 : (Writer.mk Accum.empty p).out = w.out ++ (bitsOf rem value).take (w.acc.chunkIn rem) := by
            rw [out_of_accepted (w := w) hacc, pending_of_occ_zero rfl, byteBits_cons, ← hbyte, hpend, Writer.out]
            simp
          refine ⟨hl, ⟨.write (w.acc.append value rem).buf, .ok⟩ :: es, w.acc.chunkIn rem + j, by omega, ?_, ?_, ?_⟩
          · rw [hout, hout0, List.append_assoc, ← drop_bitsOf hr, ← List.take_add]
          · intro e he
            rcases List.mem_cons.1 he with rfl | he
            · exact ⟨rfl, _, rfl⟩
            · exact hes e he
          · rcases hcases with ⟨hx, rfl, htr, hne, h00⟩ | ⟨hx, hx8, htr⟩ | ⟨hx, hx8, htr⟩
            · refine .inl ⟨hx, by omega, by rw [htr, ht]; simp, fun _ => ?_, fun h => absurd h h0⟩
              by_cases hz : rem - w.acc.chunkIn rem = 0
              · obtain ⟨hw, rfl⟩ := h00 hz
                rw [hw]
                rw [Accum.empty_occ, List.length_singleton]
                omega
              · obtain ⟨hm, hlen⟩ := hne hz
                rw [Accum.empty_occ] at hm hlen
                rw [List.length_cons]
                omega
            · exact .inr (.inl ⟨hx, hx8, by rw [htr, ht]; simp⟩)
            · exact .inr (.inr ⟨hx, hx8, by rw [htr, ht]; simp⟩)
        · rename_i p hp
          have ht := sinkTransact_trace hp
          refine ⟨hleg, [], w.acc.chunkIn rem, hr, ?_, by simp, .inr (.inl ⟨rfl, hfull, by rw [ht]; simp⟩)⟩
          have hacc : p.accepted = w.port.accepted ++ [] := accepted_append ht
          rw [out_of_accepted (w := w) (w' := ⟨_, p⟩) hacc, hpend, Writer.out]
          simp
        · rename_i p hp
          have ht := sinkTransact_unanswered hp
          refine ⟨hleg, [], w.acc.chunkIn rem, hr, ?_, by simp, .inr (.inr ⟨rfl, hfull, by rw [ht]; simp⟩)⟩
          have hacc : p.accepted = w.port.accepted ++ [] := accepted_append (es := []) (by rw [ht]; simp)
          rw [out_of_accepted (w := w) (w' := ⟨_, p⟩) hacc, hpend, Writer.out]
          simp
      · rename_i hfull
        have hz : rem - w.acc.chunkIn rem = 0 := by omega
        rw [hz]
        have hk' : w.acc.chunkIn rem = rem := by omega
        have hdone : writeLoop fuel value 0 ⟨w.acc.append value rem, w.port⟩ =
            (.done (Response.ok 0), ⟨w.acc.append value rem, w.port⟩) := by
          cases fuel <;> simp [writeLoop]
        rw [hdone]
        refine ⟨hleg, [], rem, le_rfl, ?_, by simp, .inl ⟨rfl, rfl, by simp, fun _ => ?_, fun h => absurd h h0⟩⟩
        · rw [Writer.out, Writer.out, hpend, hk', List.append_assoc]
        · simp only [List.length_nil]
          omega

/-- A willing sink carries the whole run. -/
theorem writeLoop_completes (fuel value rem : Nat) (w : Writer) (h : w.acc.legal)
    (hf : rem = 0 ∨ w.acc.occ + rem ≤ 8 * fuel) (hw : w.port.willing ((w.acc.occ + rem) / 8)) :
    (writeLoop fuel value rem w).1 = .done (Response.ok 0) ∧
      (rem ≠ 0 → ∀ m, w.port.willing ((w.acc.occ + rem) / 8 + m) → (writeLoop fuel value rem w).2.port.willing m) := by
  induction fuel generalizing rem w with
  | zero =>
    have : rem = 0 := by omega
    subst this
    exact ⟨rfl, fun h => absurd rfl h⟩
  | succ fuel ih =>
    unfold writeLoop
    split
    · rename_i h0
      exact ⟨rfl, fun h => absurd h0 h⟩
    · rename_i h0
      have hk : w.acc.chunkIn rem = min rem (8 - w.acc.occ) := rfl
      have hocc := append_occ w.acc value rem
      have h8 := h.1
      simp only
      split
      · rename_i hfull
        have hm : (w.acc.occ + rem) / 8 = (rem - w.acc.chunkIn rem) / 8 + 1 := by omega
        rw [hm] at hw
        obtain ⟨q, hq, hq'⟩ := sinkTransact_willing hw (.write (w.acc.append value rem).buf)
        have hi := ih (rem - w.acc.chunkIn rem) ⟨Accum.empty, q⟩ Accum.empty_legal (by rw [Accum.empty_occ]; omega)
          (by simpa using hq' (by simp))
        rw [hq]
        refine ⟨hi.1, fun _ m hwm => ?_⟩
        rw [hm, Nat.add_right_comm] at hwm
        obtain ⟨q2, hq2, hq2'⟩ := sinkTransact_willing hwm (.write (w.acc.append value rem).buf)
        rw [hq] at hq2
        obtain rfl : q = q2 := congrArg Prod.snd hq2
        by_cases hz : rem - w.acc.chunkIn rem = 0
        · have hdone : ∀ w', writeLoop fuel value 0 w' = (.done (Response.ok 0), w') := by
            intro w'; cases fuel <;> simp [writeLoop]
          simp only [hz, hdone]
          exact willing_mono (hq2' (by simp)) (by omega)
        · exact hi.2 hz m (by simpa using hq2' (by simp))
      · have hz : rem - w.acc.chunkIn rem = 0 := by omega
        have hdone : ∀ w', writeLoop fuel value 0 w' = (.done (Response.ok 0), w') := by
          intro w'; cases fuel <;> simp [writeLoop]
        rw [hz, hdone]
        exact ⟨rfl, fun _ m hwm => willing_mono hwm (by omega)⟩

/-! ## The reader's loop -/

/-- How an RDBITS loop of `rem` bits from `r`, on the result `result` gathered so far, can stand at its end `x`. -/
structure ReadOutcome (rem result : Nat) (r : Reader) (x : Ending SourceReq × Reader) : Prop where
  atRest : x.2.acc.atRest
  /-- some bytes came in; and either the run is complete, or the source ended, failed or does not answer when one more
  was needed, and the accumulator is empty -/
  cases : ∃ bs : List Byte,
    (bs.length = (rem - r.acc.occ + 7) / 8 ∧ x.2.port.trace = r.port.trace ++ readEvents bs ∧
      ∃ u, u < 2 ^ rem ∧ x.1 = .done (Response.ok (BitVec.ofNat 32 ((result <<< rem) ||| u))) ∧
        r.acc.pending ++ byteBits bs = bitsOf rem u ++ x.2.acc.pending) ∨
    (r.acc.occ + 8 * bs.length < rem ∧ x.2.acc = Accum.empty ∧
      ((x.1 = .done (raise .endOfStream) ∧ x.2.port.trace = r.port.trace ++ readEvents bs ++ [.read .eod]) ∨
        (x.1 = .done (raise .ioError) ∧ x.2.port.trace = r.port.trace ++ readEvents bs ++ [.read .ioerr]) ∨
        (x.1 = .blocked .read ∧ x.2.port.trace = r.port.trace ++ readEvents bs)))

/-- Passes that suffice for `rem` bits with `occ` bits held (30_encoding.md R56). -/
abbrev ReadFuel (fuel rem occ : Nat) : Prop := rem = 0 ∨ (occ = 0 ∧ rem ≤ 8 * fuel) ∨ (0 < occ ∧ rem + 8 ≤ 8 * fuel + occ)

theorem readLoop_zero (fuel result : Nat) (r : Reader) :
    readLoop fuel 0 result r = (.done (Response.ok (BitVec.ofNat 32 result)), r) := by
  cases fuel <;> simp [readLoop]

theorem or_lt_two_pow {c u k m : Nat} (hc : c < 2 ^ k) (hu : u < 2 ^ m) : (c <<< m) ||| u < 2 ^ (k + m) := by
  refine Nat.or_lt_two_pow ?_ (hu.trans_le (Nat.pow_le_pow_right (by decide) (by omega)))
  rw [Nat.shiftLeft_eq, Nat.pow_add]
  exact Nat.mul_lt_mul_of_pos_right hc (by positivity)

/-- Taking a chunk from an accumulator that holds bits, then the rest of the run from what is left: the rest's outcome
gives the whole run's. `r'` is the reader after the refill, if there was one, and `cs` the byte it brought. -/
theorem ReadOutcome.chunk {rem result : Nat} {r r' : Reader} {cs : List Byte} {x : Ending SourceReq × Reader}
    (h8 : r'.acc.occ ≤ 8) (hpos : 0 < r'.acc.occ) (hr : r.acc.occ + 8 * cs.length = r'.acc.occ)
    (hcs : cs = [] ∨ (r.acc.occ = 0 ∧ cs.length = 1)) (h0 : rem ≠ 0)
    (hp : r.acc.pending ++ byteBits cs = r'.acc.pending) (ht : r'.port.trace = r.port.trace ++ readEvents cs)
    (hx : ReadOutcome (rem - r'.acc.chunkOut rem) ((result <<< r'.acc.chunkOut rem) ||| r'.acc.top (r'.acc.chunkOut rem))
      ⟨r'.acc.drop (r'.acc.chunkOut rem), r'.port⟩ x) : ReadOutcome rem result r x := by
  obtain ⟨hrest, bs, hcase⟩ := hx
  have hk : r'.acc.chunkOut rem = min rem r'.acc.occ := rfl
  have hkr : r'.acc.chunkOut rem ≤ rem := Nat.min_le_left _ _
  have hko : r'.acc.chunkOut rem ≤ r'.acc.occ := Nat.min_le_right _ _
  have hdrop := drop_occ r'.acc (r'.acc.chunkOut rem)
  have hsplit := pending_eq_top_append_drop h8 hko
  have htop := top_lt r'.acc (r'.acc.chunkOut rem) (by omega)
  have hlen : cs.length ≤ 1 := by rcases hcs with rfl | ⟨-, h⟩ <;> simp [*]
  have hev : ∀ xs ys : List Byte, readEvents (xs ++ ys) = readEvents xs ++ readEvents ys := fun xs ys => by simp [readEvents]
  refine ⟨hrest, cs ++ bs, ?_⟩
  rcases hcase with ⟨hl, htr, u, hu, hdone, hbits⟩ | ⟨hlt, hemp, hend⟩
  · refine .inl ⟨?_, by rw [htr, ht, hev, List.append_assoc], (r'.acc.top (r'.acc.chunkOut rem) <<< (rem - r'.acc.chunkOut rem)) ||| u,
      ?_, ?_, ?_⟩
    · rw [List.length_append, hl]
      simp only [hdrop]
      rcases hcs with rfl | ⟨hz, h1⟩
      · simp only [List.length_nil] at *; omega
      · omega
    · have := or_lt_two_pow htop hu
      rwa [Nat.add_sub_cancel' hkr] at this
    · rw [hdone, Nat.shiftLeft_or_distrib, ← Nat.shiftLeft_add, Nat.add_sub_cancel' hkr, Nat.or_assoc]
    · have hb := bitsOf_append (r'.acc.chunkOut rem) (rem - r'.acc.chunkOut rem) (r'.acc.top (r'.acc.chunkOut rem)) u hu
      rw [Nat.add_sub_cancel' hkr] at hb
      rw [byteBits_append, ← List.append_assoc, hp, hsplit, hb, List.append_assoc, List.append_assoc, hbits]
  · refine .inr ⟨?_, hemp, ?_⟩
    · rw [List.length_append]
      simp only [hdrop] at hlt
      omega
    · simpa only [ht, hev, List.append_assoc] using hend

/-- Every end of the reader's chunk loop, from an accumulator at rest and enough passes. -/
theorem readLoop_cases (fuel rem result : Nat) (r : Reader) (h : r.acc.atRest) (hf : ReadFuel fuel rem r.acc.occ) :
    ReadOutcome rem result r (readLoop fuel rem result r) := by
  induction fuel generalizing rem result r with
  | zero =>
    have : rem = 0 := by rcases hf with h | h | h <;> omega
    subst this
    exact ⟨h, [], .inl ⟨by simp, by simp [readLoop, readEvents], 0, by simp, by simp [readLoop], by simp [bitsOf, readLoop]⟩⟩
  | succ fuel ih =>
    unfold readLoop
    split
    · rename_i h0
      subst h0
      exact ⟨h, [], .inl ⟨by simp, by simp [readEvents], 0, by simp, by simp, by simp [bitsOf]⟩⟩
    · rename_i h0
      unfold refill
      by_cases hocc : r.acc.occ = 0
      · rw [if_pos hocc]
        have hemp := Accum.eq_empty h.2 hocc
        rcases hs : sourceRead r.port with ⟨_ | _ | _ | _, p⟩
        · have ht := sourceRead_unanswered hs
          simp only
          exact ⟨h, [], .inr ⟨by simp [hocc]; omega, hemp, .inr (.inr ⟨rfl, by simp [ht, readEvents]⟩)⟩⟩
        · rename_i b
          have ht := sourceRead_trace hs
          simp only
          have hk : (Accum.mk 8 b).chunkOut rem = min rem 8 := rfl
          refine ReadOutcome.chunk (r' := ⟨⟨8, b⟩, p⟩) (cs := [b]) le_rfl (by simp) (by simp [hocc]) (.inr ⟨hocc, rfl⟩) h0 ?_
            (by simp [ht, readEvents]) (ih _ _ _ ⟨?_, drop_lowZero ?_ (Nat.min_le_right _ _)⟩ ?_)
          · rw [pending_of_occ_zero hocc, pending_full, byteBits_cons]; simp
          · show 8 - (Accum.mk 8 b).chunkOut rem ≤ 7
            omega
          · intro j hj; simp at hj
          · show ReadFuel fuel (rem - (Accum.mk 8 b).chunkOut rem) (8 - (Accum.mk 8 b).chunkOut rem)
            unfold ReadFuel at *
            omega
        · have ht := sourceRead_trace hs
          simp only
          exact ⟨h, [], .inr ⟨by simp [hocc]; omega, hemp, .inr (.inl ⟨rfl, by simp [ht, readEvents]⟩)⟩⟩
        · have ht := sourceRead_trace hs
          simp only
          exact ⟨h, [], .inr ⟨by simp [hocc]; omega, hemp, .inl ⟨rfl, by simp [ht, readEvents]⟩⟩⟩
      · rw [if_neg hocc]
        simp only
        have hk : r.acc.chunkOut rem = min rem r.acc.occ := rfl
        have h7 := h.1
        refine ReadOutcome.chunk (r' := r) (cs := []) (by omega) (by omega) (by simp) (.inl rfl) h0 (by simp)
          (by simp [readEvents]) (ih _ _ _ ⟨?_, drop_lowZero h.2 (Nat.min_le_right _ _)⟩ ?_)
        · show r.acc.occ - r.acc.chunkOut rem ≤ 7
          omega
        · show ReadFuel fuel (rem - r.acc.chunkOut rem) (r.acc.occ - r.acc.chunkOut rem)
          unfold ReadFuel at *
          omega

/-- A source that yields the needed bytes, one by one, carries the whole run; `Q bs p` says that the port `p` yields the
bytes `bs` next (`SourcePort.supplies`, or one of its two refinements). -/
theorem readLoop_fed (Q : List Byte → SourcePort → Prop)
    (hQ : ∀ b bs p, Q (b :: bs) p → ∃ q, sourceRead p = (some (.byte b), q) ∧ Q bs q)
    (fuel rem result : Nat) (r : Reader) (bs : List Byte) (h7 : r.acc.occ ≤ 7) (hf : ReadFuel fuel rem r.acc.occ)
    (hbs : Q bs r.port) (hn : rem ≤ r.acc.occ + 8 * bs.length) :
    ∃ v, (readLoop fuel rem result r).1 = .done (Response.ok v) ∧
      (readLoop fuel rem result r).2.port.trace = r.port.trace ++ readEvents (bs.take ((rem - r.acc.occ + 7) / 8)) ∧
      Q (bs.drop ((rem - r.acc.occ + 7) / 8)) (readLoop fuel rem result r).2.port := by
  induction fuel generalizing rem result r bs with
  | zero =>
    have : rem = 0 := by rcases hf with h | h | h <;> omega
    subst this
    exact ⟨_, rfl, by simp [readLoop, readEvents], by simpa [readLoop] using hbs⟩
  | succ fuel ih =>
    unfold readLoop
    split
    · rename_i h0
      subst h0
      exact ⟨_, rfl, by simp [readEvents], by simpa using hbs⟩
    · rename_i h0
      unfold refill
      by_cases hocc : r.acc.occ = 0
      · rw [if_pos hocc]
        cases bs with
        | nil => simp [hocc] at hn; omega
        | cons b bs =>
          obtain ⟨q, hs, hq⟩ := hQ _ _ _ hbs
          rw [hs]
          simp only
          have hk : (Accum.mk 8 b).chunkOut rem = min rem 8 := rfl
          have hd : ((Accum.mk 8 b).drop ((Accum.mk 8 b).chunkOut rem)).occ = 8 - min rem 8 := rfl
          obtain ⟨v, hv, ht, hq'⟩ := ih (rem - (Accum.mk 8 b).chunkOut rem)
            ((result <<< (Accum.mk 8 b).chunkOut rem) ||| (Accum.mk 8 b).top ((Accum.mk 8 b).chunkOut rem))
            ⟨(Accum.mk 8 b).drop ((Accum.mk 8 b).chunkOut rem), q⟩ bs
            (by rw [hd]; omega) (by rw [hd, hk]; unfold ReadFuel at *; omega) hq
            (by rw [hd, hk]; simp only [List.length_cons] at hn; omega)
          have hm : (rem - r.acc.occ + 7) / 8 = (rem - (Accum.mk 8 b).chunkOut rem - (8 - min rem 8) + 7) / 8 + 1 := by omega
          rw [hd] at ht hq'
          refine ⟨v, hv, ?_, ?_⟩
          · rw [ht, sourceRead_trace hs, hm, List.take_succ_cons]
            simp [readEvents]
          · rw [hm, List.drop_succ_cons]
            exact hq'
      · rw [if_neg hocc]
        simp only
        have hk : r.acc.chunkOut rem = min rem r.acc.occ := rfl
        have hd : (r.acc.drop (r.acc.chunkOut rem)).occ = r.acc.occ - min rem r.acc.occ := rfl
        obtain ⟨v, hv, ht, hq'⟩ := ih (rem - r.acc.chunkOut rem)
          ((result <<< r.acc.chunkOut rem) ||| r.acc.top (r.acc.chunkOut rem))
          ⟨r.acc.drop (r.acc.chunkOut rem), r.port⟩ bs
          (by rw [hd]; omega) (by rw [hd, hk]; unfold ReadFuel at *; omega) hbs (by rw [hd, hk]; omega)
        have hm : rem - r.acc.chunkOut rem - (r.acc.occ - min rem r.acc.occ) = rem - r.acc.occ := by omega
        rw [hd, hm] at ht hq'
        exact ⟨v, hv, ht, hq'⟩

/-- A source that yields too few bytes and then answers `a` ends the run with the response `x` that `a` raises. -/
theorem readLoop_starved (Q : List Byte → SourcePort → Prop) (a : ReadAnswer) (x : Response)
    (hax : (a = .eod ∧ x = raise .endOfStream) ∨ (a = .ioerr ∧ x = raise .ioError))
    (hQ : ∀ b bs p, Q (b :: bs) p → ∃ q, sourceRead p = (some (.byte b), q) ∧ Q bs q)
    (hend : ∀ p, Q [] p → ∃ q, sourceRead p = (some a, q))
    (fuel rem result : Nat) (r : Reader) (bs : List Byte) (h : r.acc.atRest) (hf : ReadFuel fuel rem r.acc.occ)
    (hbs : Q bs r.port) (hn : r.acc.occ + 8 * bs.length < rem) :
    (readLoop fuel rem result r).1 = .done x ∧ (readLoop fuel rem result r).2.acc = Accum.empty ∧
      (readLoop fuel rem result r).2.port.trace = r.port.trace ++ readEvents bs ++ [.read a] := by
  induction fuel generalizing rem result r bs with
  | zero => unfold ReadFuel at hf; omega
  | succ fuel ih =>
    unfold readLoop
    split
    · omega
    · rename_i h0
      unfold refill
      by_cases hocc : r.acc.occ = 0
      · rw [if_pos hocc]
        cases bs with
        | nil =>
          obtain ⟨q, hs⟩ := hend _ hbs
          have ht := sourceRead_trace hs
          rcases hax with ⟨rfl, rfl⟩ | ⟨rfl, rfl⟩ <;> rw [hs] <;>
            exact ⟨rfl, Accum.eq_empty h.2 hocc, by simp [ht, readEvents]⟩
        | cons b bs =>
          obtain ⟨q, hs, hq⟩ := hQ _ _ _ hbs
          rw [hs]
          simp only
          have hk : (Accum.mk 8 b).chunkOut rem = min rem 8 := rfl
          have hd : ((Accum.mk 8 b).drop ((Accum.mk 8 b).chunkOut rem)).occ = 8 - min rem 8 := rfl
          have hl : (b :: bs).length = bs.length + 1 := rfl
          obtain ⟨h1, h2, h3⟩ := ih (rem - (Accum.mk 8 b).chunkOut rem)
            ((result <<< (Accum.mk 8 b).chunkOut rem) ||| (Accum.mk 8 b).top ((Accum.mk 8 b).chunkOut rem))
            ⟨(Accum.mk 8 b).drop ((Accum.mk 8 b).chunkOut rem), q⟩ bs
            ⟨by rw [hd]; omega, drop_lowZero (fun j hj => by simp at hj) (Nat.min_le_right _ _)⟩
            (by rw [hd, hk]; unfold ReadFuel at *; omega) hq (by rw [hd, hk]; omega)
          refine ⟨h1, h2, ?_⟩
          rw [h3, sourceRead_trace hs]
          simp [readEvents]
      · rw [if_neg hocc]
        simp only
        have hk : r.acc.chunkOut rem = min rem r.acc.occ := rfl
        have hd : (r.acc.drop (r.acc.chunkOut rem)).occ = r.acc.occ - min rem r.acc.occ := rfl
        have h7 := h.1
        exact ih (rem - r.acc.chunkOut rem) _ ⟨r.acc.drop (r.acc.chunkOut rem), r.port⟩ bs
          ⟨by rw [hd]; omega, drop_lowZero h.2 (Nat.min_le_right _ _)⟩
          (by rw [hd, hk]; unfold ReadFuel at *; omega) hbs (by rw [hd, hk]; omega)

end Sys2Proof.Machine
end

