-- ==== Sys2Proof/Laws/State.lean ====
section
/-! SUPPORT. One lemma per field per update of the state, so that no later proof unfolds a record update. -/

namespace Sys2Proof.Machine

section finishBw
variable (s : State) (x : Ending SinkReq × Writer)

@[simp] theorem finishBw_acc : (s.finishBw x).bw.acc = x.2.acc := rfl
@[simp] theorem finishBw_regs : (s.finishBw x).bw.regs = x.1.report s.bw.regs := rfl
@[simp] theorem finishBw_awaiting : (s.finishBw x).bw.awaiting = x.1.pending := rfl
@[simp] theorem finishBw_br : (s.finishBw x).br = s.br := rfl
@[simp] theorem finishBw_sink : (s.finishBw x).sink = x.2.port := rfl
@[simp] theorem finishBw_source : (s.finishBw x).source = s.source := rfl
@[simp] theorem finishBw_buffer : (s.finishBw x).buffer = s.buffer := rfl
@[simp] theorem finishBw_map : (s.finishBw x).map = s.map := rfl
@[simp] theorem finishBw_host : (s.finishBw x).host = s.host := rfl
@[simp] theorem finishBw_readData : (s.finishBw x).readData = s.readData := rfl
@[simp] theorem finishBw_writer : (s.finishBw x).writer = x.2 := rfl

end finishBw

section finishBr
variable (s : State) (x : Ending SourceReq × Reader)

@[simp] theorem finishBr_acc : (s.finishBr x).br.acc = x.2.acc := rfl
@[simp] theorem finishBr_snap : (s.finishBr x).br.snap = s.br.snap := rfl
@[simp] theorem finishBr_regs : (s.finishBr x).br.regs = x.1.report s.br.regs := rfl
@[simp] theorem finishBr_awaiting : (s.finishBr x).br.awaiting = x.1.pending := rfl
@[simp] theorem finishBr_bw : (s.finishBr x).bw = s.bw := rfl
@[simp] theorem finishBr_sink : (s.finishBr x).sink = s.sink := rfl
@[simp] theorem finishBr_source : (s.finishBr x).source = x.2.port := rfl
@[simp] theorem finishBr_buffer : (s.finishBr x).buffer = s.buffer := rfl
@[simp] theorem finishBr_map : (s.finishBr x).map = s.map := rfl
@[simp] theorem finishBr_host : (s.finishBr x).host = s.host := rfl
@[simp] theorem finishBr_readData : (s.finishBr x).readData = s.readData := rfl
@[simp] theorem finishBr_reader : (s.finishBr x).reader = x.2 := rfl

end finishBr

section registers
variable (s : State) (u : UnitId) (r : HostRegs)

@[simp] theorem withRegs_bw_acc : (s.withRegs u r).bw.acc = s.bw.acc := by cases u <;> rfl
@[simp] theorem withRegs_bw_awaiting : (s.withRegs u r).bw.awaiting = s.bw.awaiting := by cases u <;> rfl
@[simp] theorem withRegs_br_acc : (s.withRegs u r).br.acc = s.br.acc := by cases u <;> rfl
@[simp] theorem withRegs_br_snap : (s.withRegs u r).br.snap = s.br.snap := by cases u <;> rfl
@[simp] theorem withRegs_br_awaiting : (s.withRegs u r).br.awaiting = s.br.awaiting := by cases u <;> rfl
@[simp] theorem withRegs_sink : (s.withRegs u r).sink = s.sink := by cases u <;> rfl
@[simp] theorem withRegs_source : (s.withRegs u r).source = s.source := by cases u <;> rfl
@[simp] theorem withRegs_buffer : (s.withRegs u r).buffer = s.buffer := by cases u <;> rfl
@[simp] theorem withRegs_map : (s.withRegs u r).map = s.map := by cases u <;> rfl
@[simp] theorem withRegs_host : (s.withRegs u r).host = s.host := by cases u <;> rfl
@[simp] theorem withRegs_readData : (s.withRegs u r).readData = s.readData := by cases u <;> rfl
@[simp] theorem withRegs_blocked (v : UnitId) : (s.withRegs u r).blocked v = s.blocked v := by cases u <;> cases v <;> rfl
@[simp] theorem withRegs_regs_same : (s.withRegs u r).regs u = r := by cases u <;> rfl
theorem withRegs_regs_other {v : UnitId} (h : v ≠ u) : (s.withRegs u r).regs v = s.regs v := by
  cases u <;> cases v <;> first | rfl | exact absurd rfl h
@[simp] theorem regs_bw : s.regs .bw = s.bw.regs := rfl
@[simp] theorem regs_br : s.regs .br = s.br.regs := rfl

@[simp] theorem withRegs_writer : (s.withRegs u r).writer = s.writer := by cases u <;> rfl
@[simp] theorem withRegs_reader : (s.withRegs u r).reader = s.reader := by cases u <;> rfl

end registers

section response
variable (r : HostRegs) (x : Response)

@[simp] theorem report_arg0 : (r.report x).arg0 = r.arg0 := rfl
@[simp] theorem report_arg1 : (r.report x).arg1 = r.arg1 := rfl
@[simp] theorem report_cmd : (r.report x).cmd = r.cmd := rfl
@[simp] theorem report_status : (r.report x).status = statusWord x.code := rfl
@[simp] theorem report_result : (r.report x).result = x.value := rfl
@[simp] theorem ok_code (v : Word) : (Response.ok v).code = .ok := rfl
@[simp] theorem ok_value (v : Word) : (Response.ok v).value = v := rfl
@[simp] theorem raise_code (k : ErrorKind) : (raise k).code = k.code := rfl
@[simp] theorem raise_value (k : ErrorKind) : (raise k).value = 0 := rfl
@[simp] theorem done_report {ρ : Type} : (Ending.done (ρ := ρ) x).report r = r.report x := rfl
@[simp] theorem done_pending {ρ : Type} : (Ending.done (ρ := ρ) x).pending = none := rfl
@[simp] theorem blocked_report {ρ : Type} (q : ρ) : (Ending.blocked q).report r = r := rfl
@[simp] theorem blocked_pending {ρ : Type} (q : ρ) : (Ending.blocked q).pending = some q := rfl

/-- A command never touches its operand and command registers (R18). -/
@[simp] theorem ending_arg0 {ρ : Type} (e : Ending ρ) : (e.report r).arg0 = r.arg0 := by cases e <;> rfl
@[simp] theorem ending_arg1 {ρ : Type} (e : Ending ρ) : (e.report r).arg1 = r.arg1 := by cases e <;> rfl
@[simp] theorem ending_cmd {ρ : Type} (e : Ending ρ) : (e.report r).cmd = r.cmd := by cases e <;> rfl

end response

/-- Different codes give different STATUS words (R19). -/
theorem statusWord_inj {c d : Code} (h : statusWord c = statusWord d) : c = d := by
  cases c <;> cases d <;> first | rfl | (exact absurd h (by decide))

end Sys2Proof.Machine
end

