-- ==== Sys2Proof/Laws/Commands.lean ====
section
/-! SUPPORT. What the bit-run commands and RDBYTE do on their unit, once each; the byte-array and skip commands are
repetitions of these. -/

namespace Sys2Proof.Machine

/-! ## Argument checks -/

@[simp] theorem runLengthOk_iff (n : Nat) : runLengthOk n = true ↔ 1 ≤ n ∧ n ≤ 32 := by simp [runLengthOk]

@[simp] theorem fitsIn_iff (v : Word) (n : Nat) : fitsIn v n = true ↔ v.toNat ≤ 2 ^ n - 1 := by simp [fitsIn]

@[simp] theorem rangeOk_iff (o l : Word) : rangeOk o l = true ↔ o.toNat + l.toNat ≤ 2 ^ 32 := by simp [rangeOk]

/-! ## WRBITS and WRBYTE -/

theorem wrBits_valid {v : Word} {n : Nat} (hn : 1 ≤ n ∧ n ≤ 32) (hv : v.toNat ≤ 2 ^ n - 1) (w : Writer) :
    wrBits v n w = writeLoop Config.maxPasses v.toNat n w := by
  rw [wrBits, if_pos (by rw [Bool.and_eq_true, runLengthOk_iff, fitsIn_iff]; exact ⟨hn, hv⟩)]

theorem wrBits_invalid {v : Word} {n : Nat} (h : ¬((1 ≤ n ∧ n ≤ 32) ∧ v.toNat ≤ 2 ^ n - 1)) (w : Writer) :
    wrBits v n w = (.done (raise .invalidArgument), w) := by
  rw [wrBits, if_neg (by rw [Bool.and_eq_true, runLengthOk_iff, fitsIn_iff]; exact h)]

theorem writeFuel {n occ : Nat} (hn : n ≤ 32) (h8 : occ ≤ 8) : n = 0 ∨ occ + n ≤ 8 * Config.maxPasses := by
  simp only [Config.maxPasses]; omega

/-- Every end of a valid WRBITS. -/
theorem wrBits_cases {v : Word} {n : Nat} (hn : 1 ≤ n ∧ n ≤ 32) (hv : v.toNat ≤ 2 ^ n - 1) {w : Writer}
    (h : w.acc.legal) : WriteOutcome v.toNat n w (wrBits v n w) := by
  rw [wrBits_valid hn hv]
  exact writeLoop_cases _ _ _ _ h (writeFuel hn.2 h.1)

/-- A valid WRBITS on a willing sink ends OK. -/
theorem wrBits_completes {v : Word} {n : Nat} (hn : 1 ≤ n ∧ n ≤ 32) (hv : v.toNat ≤ 2 ^ n - 1) {w : Writer}
    (h : w.acc.legal) (hw : w.port.willing ((w.acc.occ + n) / 8)) :
    (wrBits v n w).1 = .done (Response.ok 0) ∧
      ∀ m, w.port.willing ((w.acc.occ + n) / 8 + m) → (wrBits v n w).2.port.willing m := by
  rw [wrBits_valid hn hv]
  have := writeLoop_completes _ v.toNat _ _ h (writeFuel hn.2 h.1) hw
  exact ⟨this.1, this.2 (by omega)⟩

/-- WRBITS keeps the accumulator legal, valid or not. -/
theorem wrBits_legal (v : Word) (n : Nat) {w : Writer} (h : w.acc.legal) : (wrBits v n w).2.acc.legal := by
  by_cases hok : (1 ≤ n ∧ n ≤ 32) ∧ v.toNat ≤ 2 ^ n - 1
  · exact (wrBits_cases hok.1 hok.2 h).legal
  · rw [wrBits_invalid hok]; exact h

/-! ## RDBITS -/

theorem rdBits_valid {n : Nat} (hn : 1 ≤ n ∧ n ≤ 32) (r : Reader) : rdBits n r = readLoop Config.maxPasses n 0 r := by
  rw [rdBits, if_pos ((runLengthOk_iff n).2 hn)]

theorem rdBits_invalid {n : Nat} (h : ¬(1 ≤ n ∧ n ≤ 32)) (r : Reader) :
    rdBits n r = (.done (raise .invalidArgument), r) := by
  rw [rdBits, if_neg (by rw [runLengthOk_iff]; exact h)]

theorem readFuel {n occ : Nat} (hn : n ≤ 32) : ReadFuel Config.maxPasses n occ := by
  simp only [Config.maxPasses, ReadFuel]; omega

/-- Every end of a valid RDBITS. -/
theorem rdBits_cases {n : Nat} (hn : 1 ≤ n ∧ n ≤ 32) {r : Reader} (h : r.acc.atRest) :
    ReadOutcome n 0 r (rdBits n r) := by
  rw [rdBits_valid hn]
  exact readLoop_cases _ _ _ _ h (readFuel hn.2)

/-- RDBITS leaves the accumulator at rest, valid or not. -/
theorem rdBits_atRest (n : Nat) {r : Reader} (h : r.acc.atRest) : (rdBits n r).2.acc.atRest := by
  by_cases hn : 1 ≤ n ∧ n ≤ 32
  · exact (rdBits_cases hn h).atRest
  · rw [rdBits_invalid hn]; exact h

/-- The value of a complete RDBITS, given that it ended OK. -/
theorem rdBits_value {n : Nat} (hn : 1 ≤ n ∧ n ≤ 32) {r : Reader} (h : r.acc.atRest) {v : Word}
    (hv : (rdBits n r).1 = .done (Response.ok v)) :
    ∃ bs : List Byte, bs.length = (n - r.acc.occ + 7) / 8 ∧ (rdBits n r).2.port.trace = r.port.trace ++ readEvents bs ∧
      v.toNat < 2 ^ n ∧ r.acc.pending ++ byteBits bs = bitsOf n v.toNat ++ (rdBits n r).2.acc.pending := by
  obtain ⟨-, bs, ⟨hl, ht, u, hu, hd, hb⟩ | ⟨-, -, ⟨hd, -⟩ | ⟨hd, -⟩ | ⟨hd, -⟩⟩⟩ := rdBits_cases hn h
  · rw [hv] at hd
    simp only [Ending.done.injEq, Response.ok, Response.mk.injEq, true_and, Nat.zero_shiftLeft, Nat.zero_or] at hd
    have hu32 : u < 2 ^ 32 := hu.trans_le (Nat.pow_le_pow_right (by decide) hn.2)
    have hvu : v.toNat = u := by rw [hd, BitVec.toNat_ofNat, Nat.mod_eq_of_lt hu32]
    exact ⟨bs, hl, ht, hvu ▸ hu, hvu ▸ hb⟩
  all_goals (rw [hv] at hd; simp [Response.ok, raise, ErrorKind.code] at hd)

/-! ## RDBYTE -/

theorem rdByte_eq (r : Reader) :
    rdByte r = match rdBits 8 r with
      | (.done x, r') => (.done (if x.code = .endOfStream then Response.ok Config.sentinel else x), r')
      | (.blocked q, r') => (.blocked q, r') := by
  unfold rdByte rdByteWith
  rcases rdBits 8 r with ⟨x | q, r'⟩ <;> simp [byteResponse, Config.rdbyteSwallowsIoErr]

theorem rdByte_snd (r : Reader) : (rdByte r).2 = (rdBits 8 r).2 := by
  rw [rdByte_eq]; rcases rdBits 8 r with ⟨x | q, r'⟩ <;> rfl

/-- RDBYTE from a source that yields a byte, whatever else `Q` says of the source. -/
theorem rdByte_fed (Q : List Byte → SourcePort → Prop)
    (hQ : ∀ b bs p, Q (b :: bs) p → ∃ q, sourceRead p = (some (.byte b), q) ∧ Q bs q)
    {r : Reader} {b : Byte} {bs : List Byte} (h : r.acc.atRest) (hb : Q (b :: bs) r.port) :
    ∃ v, (rdByte r).1 = .done (Response.ok v) ∧ v.toNat < 256 ∧
      r.acc.pending ++ bitsOf 8 b.toNat = bitsOf 8 v.toNat ++ (rdByte r).2.acc.pending ∧
      (rdByte r).2.acc.occ = r.acc.occ ∧ (rdByte r).2.acc.atRest ∧
      (rdByte r).2.port.trace = r.port.trace ++ [.read (.byte b)] ∧ Q bs (rdByte r).2.port := by
  have h7 := h.1
  obtain ⟨v, hv, ht, hq⟩ := readLoop_fed Q hQ Config.maxPasses 8 0 r (b :: bs) h.1 (readFuel (by decide)) hb
    (by simp only [List.length_cons]; omega)
  rw [← rdBits_valid (by decide)] at hv ht hq
  have hm : (8 - r.acc.occ + 7) / 8 = 1 := by omega
  rw [hm] at ht hq
  obtain ⟨cs, hl, ht', hlt, hbits⟩ := rdBits_value (by decide) h hv
  rw [ht] at ht'
  have hcs : cs = [b] := by
    have h1 := List.append_cancel_left ht'
    rw [hm] at hl
    match cs, hl with
    | [c], _ => simpa [readEvents] using h1.symm
  subst hcs
  rw [byteBits_cons, byteBits_nil, List.append_nil] at hbits
  have hocc : (rdBits 8 r).2.acc.occ = r.acc.occ := by
    have := congrArg List.length hbits
    rw [List.length_append, List.length_append, length_pending, length_pending, length_bitsOf, length_bitsOf] at this
    omega
  refine ⟨v, ?_, hlt, ?_, ?_, ?_, ?_, ?_⟩
  · rw [rdByte_eq]
    rcases hx : rdBits 8 r with ⟨x | q, r'⟩
    · rw [hx] at hv
      simp only [Ending.done.injEq] at hv
      subst hv
      rfl
    · rw [hx] at hv; simp at hv
  all_goals rw [rdByte_snd]
  · exact hbits
  · exact hocc
  · exact rdBits_atRest 8 h
  · simpa [readEvents] using ht
  · simpa using hq

/-- RDBYTE from a source whose next answer is no byte but `a`, for which RDBITS responds `x`: the held bits are lost. -/
theorem rdByte_starved (a : ReadAnswer) (x : Response)
    (hax : (a = .eod ∧ x = raise .endOfStream) ∨ (a = .ioerr ∧ x = raise .ioError)) {r : Reader} (h : r.acc.atRest)
    (hb : ∃ q, sourceRead r.port = (some a, q)) :
    (rdByte r).1 = .done (if x.code = .endOfStream then Response.ok Config.sentinel else x) ∧
      (rdByte r).2.acc = Accum.empty ∧ (rdByte r).2.port.trace = r.port.trace ++ [.read a] := by
  have h7 := h.1
  obtain ⟨hd, ha, ht⟩ := readLoop_starved (fun bs p => bs = [] ∧ ∃ q, sourceRead p = (some a, q)) a x hax
    (fun _ _ _ hp => absurd hp.1 (by simp)) (fun _ hp => hp.2)
    Config.maxPasses 8 0 r [] h (readFuel (by decide)) ⟨rfl, hb⟩ (by simp only [List.length_nil]; omega)
  rw [← rdBits_valid (by decide)] at hd ha ht
  refine ⟨?_, by rw [rdByte_snd, ha], by rw [rdByte_snd, ht]; simp [readEvents]⟩
  rw [rdByte_eq]
  rcases hx : rdBits 8 r with ⟨y | q, r'⟩
  · rw [hx] at hd
    simp only [Ending.done.injEq] at hd
    subst hd
    rfl
  · rw [hx] at hd; simp at hd

/-- RDBYTE from a source that has ended: the sentinel. -/
theorem rdByte_ended {r : Reader} (h : r.acc.atRest) (hb : r.port.suppliesThenEnds []) :
    (rdByte r).1 = .done (Response.ok Config.sentinel) ∧ (rdByte r).2.acc = Accum.empty ∧
      (rdByte r).2.port.trace = r.port.trace ++ [.read .eod] :=
  rdByte_starved .eod (raise .endOfStream) (.inl ⟨rfl, rfl⟩) h ((sourceRead_suppliesThenEnds hb).2 rfl)

/-- RDBYTE from a source that fails: IO_ERROR (log entry 6). -/
theorem rdByte_failed {r : Reader} (h : r.acc.atRest) (hb : r.port.suppliesThenFails []) :
    (rdByte r).1 = .done (raise .ioError) ∧ (rdByte r).2.acc = Accum.empty ∧
      (rdByte r).2.port.trace = r.port.trace ++ [.read .ioerr] :=
  rdByte_starved .ioerr (raise .ioError) (.inr ⟨rfl, rfl⟩) h ((sourceRead_suppliesThenFails hb).2 rfl)

end Sys2Proof.Machine
end

