-- ==== Sys2Proof/Laws/Memory.lean ====
section
/-! SUPPORT. Read after write, and that every memory operation keeps the canonical form (20_memory.md R37). -/

namespace Sys2Proof.Machine

theorem Memory.read_eq_background {m : Memory} {a : Nat} (h : ∀ c ∈ m, c.1 ≠ a) :
    Memory.read m a = Config.bufferBackground := by
  induction m with
  | nil => rfl
  | cons c m ih =>
    obtain ⟨k, v⟩ := c
    simp only [List.mem_cons, forall_eq_or_imp] at h
    simp [Memory.read, h.1, ih h.2]

theorem Memory.read_cons {m : Memory} {a : Nat} (v : Byte) (h : ∀ c ∈ m, a < c.1) (b : Nat) :
    Memory.read (Memory.cons a v m) b = if a = b then v else Memory.read m b := by
  unfold Memory.cons
  split
  · rename_i hv
    split
    · rename_i hab
      subst hab
      rw [Memory.read_eq_background fun c hc => (Nat.ne_of_gt (h c hc)), hv]
    · rfl
  · rfl

/-- Reading after a store gives the stored byte at its address, and every other byte as before. -/
theorem Memory.read_write {m : Memory} (h : m.wf) (a : Nat) (v : Byte) (b : Nat) :
    Memory.read (m.write a v) b = if a = b then v else Memory.read m b := by
  induction m with
  | nil => exact Memory.read_cons v (by simp) b
  | cons c m ih =>
    obtain ⟨k, w⟩ := c
    have hk : ∀ c ∈ m, k < c.1 := (List.pairwise_cons.1 h.1).1
    have hm : Memory.wf m := ⟨(List.pairwise_cons.1 h.1).2, fun c hc => h.2 c (List.mem_cons_of_mem _ hc)⟩
    unfold Memory.write
    split
    · rename_i hak
      rw [Memory.read_cons]
      intro c hc
      rcases List.mem_cons.1 hc with rfl | hc
      · exact hak
      · exact hak.trans (hk c hc)
    · split
      · rename_i hak
        subst hak
        rw [Memory.read_cons v hk]
        by_cases hb : a = b <;> simp [Memory.read, hb]
      · rename_i hne
        simp only [Memory.read, ih hm]
        by_cases hb : a = b
        · subst hb; simp [Ne.symm hne]
        · simp [hb]

theorem Memory.mem_cons_or {a : Nat} {v : Byte} {m : Memory} {c : Host.Cell} (h : c ∈ Memory.cons a v m) :
    c ∈ m ∨ (c = (a, v) ∧ v ≠ Config.bufferBackground) := by
  unfold Memory.cons at h
  split at h
  · exact .inl h
  · rcases List.mem_cons.1 h with rfl | h
    · exact .inr ⟨rfl, ‹_›⟩
    · exact .inl h

theorem Memory.mem_write {m : Memory} {a : Nat} {v : Byte} {c : Host.Cell} (h : c ∈ m.write a v) :
    c ∈ m ∨ (c = (a, v) ∧ v ≠ Config.bufferBackground) := by
  induction m with
  | nil => exact Memory.mem_cons_or h
  | cons d m ih =>
    obtain ⟨k, w⟩ := d
    unfold Memory.write at h
    split at h
    · exact Memory.mem_cons_or h
    · split at h
      · exact (Memory.mem_cons_or h).imp (List.mem_cons_of_mem _) id
      · rcases List.mem_cons.1 h with rfl | h
        · exact .inl List.mem_cons_self
        · exact (ih h).imp (List.mem_cons_of_mem _) id

theorem Memory.wf_cons {m : Memory} (h : m.wf) {a : Nat} (ha : a < 2 ^ 32) (v : Byte) (hlt : ∀ c ∈ m, a < c.1) :
    Memory.wf (Memory.cons a v m) := by
  unfold Memory.cons
  split
  · exact h
  · rename_i hv
    refine ⟨List.pairwise_cons.2 ⟨hlt, h.1⟩, fun c hc => ?_⟩
    rcases List.mem_cons.1 hc with rfl | hc
    · exact ⟨hv, ha⟩
    · exact h.2 c hc

/-- A store inside the 2^32 bytes keeps the canonical form. -/
theorem Memory.wf_write {m : Memory} (h : m.wf) {a : Nat} (ha : a < 2 ^ 32) (v : Byte) : Memory.wf (m.write a v) := by
  induction m with
  | nil => exact Memory.wf_cons h ha v (by simp)
  | cons c m ih =>
    obtain ⟨k, w⟩ := c
    have hk : ∀ c ∈ m, k < c.1 := (List.pairwise_cons.1 h.1).1
    have hm : Memory.wf m := ⟨(List.pairwise_cons.1 h.1).2, fun c hc => h.2 c (List.mem_cons_of_mem _ hc)⟩
    unfold Memory.write
    split
    · rename_i hak
      refine Memory.wf_cons h ha v fun c hc => ?_
      rcases List.mem_cons.1 hc with rfl | hc
      · exact hak
      · exact hak.trans (hk c hc)
    · split
      · rename_i hak
        exact Memory.wf_cons hm ha v (hak ▸ hk)
      · rename_i hak hne
        refine ⟨List.pairwise_cons.2 ⟨fun c hc => ?_, (ih hm).1⟩, fun c hc => ?_⟩
        · rcases Memory.mem_write hc with hc | ⟨rfl, -⟩
          · exact hk c hc
          · show k < a
            omega
        · rcases List.mem_cons.1 hc with rfl | hc
          · exact h.2 _ List.mem_cons_self
          · exact (ih hm).2 c hc

/-- Equal contents are equal data: two memories in canonical form that read alike everywhere are one list. -/
theorem Memory.ext_of_read {m n : Memory} (hm : m.wf) (hn : n.wf) (h : ∀ a, Memory.read m a = Memory.read n a) :
    m = n := by
  induction m generalizing n with
  | nil =>
    cases n with
    | nil => rfl
    | cons d n =>
      have := h d.1
      simp only [Memory.read, ↓reduceIte] at this
      exact absurd this.symm (hn.2 d List.mem_cons_self).1
  | cons c m ih =>
    cases n with
    | nil =>
      have := h c.1
      simp only [Memory.read, ↓reduceIte] at this
      exact absurd this (hm.2 c List.mem_cons_self).1
    | cons d n =>
      have hkm := (List.pairwise_cons.1 hm.1).1
      have hkn := (List.pairwise_cons.1 hn.1).1
      have hm' : Memory.wf m := ⟨(List.pairwise_cons.1 hm.1).2, fun c hc => hm.2 c (List.mem_cons_of_mem _ hc)⟩
      have hn' : Memory.wf n := ⟨(List.pairwise_cons.1 hn.1).2, fun c hc => hn.2 c (List.mem_cons_of_mem _ hc)⟩
      have hcd : c.1 = d.1 := by
        rcases Nat.lt_trichotomy c.1 d.1 with hlt | heq | hgt
        · exfalso
          have h1 := h c.1
          rw [Memory.read_eq_background (m := d :: n)] at h1
          · simp only [Memory.read, ↓reduceIte] at h1
            exact (hm.2 c List.mem_cons_self).1 h1
          · intro e he
            rcases List.mem_cons.1 he with rfl | he
            · exact Nat.ne_of_gt hlt
            · exact Nat.ne_of_gt (hlt.trans (hkn e he))
        · exact heq
        · exfalso
          have h1 := h d.1
          rw [Memory.read_eq_background (m := c :: m)] at h1
          · simp only [Memory.read, ↓reduceIte] at h1
            exact (hn.2 d List.mem_cons_self).1 h1.symm
          · intro e he
            rcases List.mem_cons.1 he with rfl | he
            · exact Nat.ne_of_gt hgt
            · exact Nat.ne_of_gt (hgt.trans (hkm e he))
      have hv : c.2 = d.2 := by
        have h1 := h c.1
        simpa [Memory.read, hcd] using h1
      have : c = d := Prod.ext hcd hv
      subst this
      congr 1
      refine ih hm' hn' fun a => ?_
      by_cases hac : c.1 = a
      · subst hac
        rw [Memory.read_eq_background fun e he => Nat.ne_of_gt (hkm e he),
          Memory.read_eq_background fun e he => Nat.ne_of_gt (hkn e he)]
      · simpa [Memory.read, hac] using h a

/-- A store by a unit inside the buffer space keeps the canonical form. -/
theorem BufferSpace.wf_write {b : BufferSpace} (h : b.wf) (u : UnitId) {a : Nat} (ha : a < 2 ^ 32) (v : Byte) :
    (b.write u a v).wf := by
  cases b with
  | shared m => exact ⟨Memory.wf_write h.1 ha v, Memory.wf_write h.1 ha v⟩
  | split m n =>
    cases u with
    | bw => exact ⟨Memory.wf_write h.1 ha v, h.2⟩
    | br => exact ⟨h.1, Memory.wf_write h.2 ha v⟩

/-- What a unit reads after it stored a byte. -/
theorem BufferSpace.read_write_same {b : BufferSpace} (h : b.wf) (u : UnitId) (a : Nat) (v : Byte) (c : Nat) :
    (b.write u a v).read u c = if a = c then v else b.read u c := by
  cases b with
  | shared m => exact Memory.read_write h.1 a v c
  | split m n =>
    cases u with
    | bw => exact Memory.read_write h.1 a v c
    | br => exact Memory.read_write h.2 a v c

/-- A store changes no byte at another address, whichever unit reads it. -/
theorem BufferSpace.read_write_other {b : BufferSpace} (h : b.wf) (u w : UnitId) {a c : Nat} (v : Byte) (hac : a ≠ c) :
    (b.write u a v).read w c = b.read w c := by
  cases b with
  | shared m => exact (Memory.read_write h.1 a v c).trans (if_neg hac)
  | split m n =>
    cases u <;> cases w
    · exact (Memory.read_write h.1 a v c).trans (if_neg hac)
    · rfl
    · rfl
    · exact (Memory.read_write h.2 a v c).trans (if_neg hac)

end Sys2Proof.Machine
end

