-- ==== Sys2Proof/Laws/Repeats.lean ====
section
/-! SUPPORT. What the commands that repeat others do, once each, and how a command's end follows from the answers it got:
`ReadAnswers` for the reading commands, `WriteAnswers` for the writing ones; both hold from every state, legal or not. -/

namespace Sys2Proof.Machine

/-! ## Ends of reading commands (41_bitreader.md R93 to R97, R101) -/

/-- A trace of reads that were all answered with a byte. -/
abbrev allBytes (rs : List SourceEvent) : Prop := ∀ e ∈ rs, ∃ b, e = .read (.byte b)

/-- How a reading command ends on the transactions `rs` it made: OK on bytes alone; on a last answer EOD with a response
that `E` allows; on a last answer IOERR with IO_ERROR; with no response when a read is never answered. -/
inductive ReadAnswers (E : Response → Prop) (rs : List SourceEvent) : Ending SourceReq → Prop
  | ok (v : Word) (h : allBytes rs) : ReadAnswers E rs (.done (Response.ok v))
  | eod (r : Response) (xs : List SourceEvent) (h : allBytes xs) (hr : E r) (e : rs = xs ++ [.read .eod]) :
      ReadAnswers E rs (.done r)
  | ioerr (xs : List SourceEvent) (h : allBytes xs) (e : rs = xs ++ [.read .ioerr]) :
      ReadAnswers E rs (.done (raise .ioError))
  | unanswered (h : allBytes rs) : ReadAnswers E rs (.blocked .read)

theorem allBytes_nil : allBytes [] := fun _ h => by cases h

theorem allBytes_one (b : Byte) : allBytes [.read (.byte b)] := fun e h => ⟨b, by simpa using h⟩

theorem allBytes_append {xs ys : List SourceEvent} (hx : allBytes xs) (hy : allBytes ys) : allBytes (xs ++ ys) :=
  fun e he => (List.mem_append.1 he).elim (hx e) (hy e)

/-- Bytes read before do not change how a command ends. -/
theorem ReadAnswers.after {E : Response → Prop} {xs rs : List SourceEvent} {e : Ending SourceReq} (h : ReadAnswers E rs e)
    (hx : allBytes xs) : ReadAnswers E (xs ++ rs) e := by
  cases h with
  | ok v h => exact .ok v (allBytes_append hx h)
  | eod r ys h hr e => exact .eod r (xs ++ ys) (allBytes_append hx h) hr (by rw [e, List.append_assoc])
  | ioerr ys h e => exact .ioerr (xs ++ ys) (allBytes_append hx h) (by rw [e, List.append_assoc])
  | unanswered h => exact .unanswered (allBytes_append hx h)

theorem readLoop_answers (fuel rem result : Nat) (r : Reader) :
    ∃ rs, (readLoop fuel rem result r).2.port.trace = r.port.trace ++ rs ∧
      ReadAnswers (· = raise .endOfStream) rs (readLoop fuel rem result r).1 := by
  induction fuel generalizing rem result r with
  | zero => exact ⟨[], by simp [readLoop], .ok _ allBytes_nil⟩
  | succ fuel ih =>
    unfold readLoop
    split
    · exact ⟨[], by simp, .ok _ allBytes_nil⟩
    · by_cases hocc : r.acc.occ = 0
      · unfold refill
        rw [if_pos hocc]
        rcases hs : sourceRead r.port with ⟨_ | _ | _ | _, p⟩
        · exact ⟨[], by simp [sourceRead_unanswered hs], .unanswered allBytes_nil⟩
        · rename_i b
          obtain ⟨rs, ht, hr⟩ := ih (rem - (Accum.mk 8 b).chunkOut rem)
            ((result <<< (Accum.mk 8 b).chunkOut rem) ||| (Accum.mk 8 b).top ((Accum.mk 8 b).chunkOut rem))
            ⟨(Accum.mk 8 b).drop ((Accum.mk 8 b).chunkOut rem), p⟩
          refine ⟨[.read (.byte b)] ++ rs, ?_, hr.after (allBytes_one b)⟩
          simp only [ht, sourceRead_trace hs, List.append_assoc]
        · exact ⟨_, sourceRead_trace hs, .ioerr [] allBytes_nil rfl⟩
        · exact ⟨_, sourceRead_trace hs, .eod _ [] allBytes_nil rfl rfl⟩
      · have hr : refill r = (.ready, r) := by unfold refill; rw [if_neg hocc]
        rw [hr]
        exact ih _ _ _

/-- RDBITS, valid: only its own END_OF_STREAM follows an EOD. -/
theorem rdBits_answers {n : Nat} (hn : 1 ≤ n ∧ n ≤ 32) (r : Reader) :
    ∃ rs, (rdBits n r).2.port.trace = r.port.trace ++ rs ∧ ReadAnswers (· = raise .endOfStream) rs (rdBits n r).1 := by
  rw [rdBits_valid hn]
  exact readLoop_answers _ _ _ _

/-- RDBYTE: the sentinel follows an EOD. -/
theorem rdByte_answers (r : Reader) :
    ∃ rs, (rdByte r).2.port.trace = r.port.trace ++ rs ∧
      ReadAnswers (· = Response.ok Config.sentinel) rs (rdByte r).1 := by
  obtain ⟨rs, ht, hr⟩ := rdBits_answers (n := 8) (by decide) r
  refine ⟨rs, by rw [rdByte_snd, ht], ?_⟩
  rw [rdByte_eq]
  rcases hx : rdBits 8 r with ⟨e, r'⟩
  rw [hx] at hr
  simp only at hr
  cases hr with
  | ok v h => exact .ok v h
  | eod x xs h hE e => subst hE; exact .eod _ xs h rfl e
  | ioerr xs h e => exact .ioerr xs h e
  | unanswered h => exact .unanswered h

theorem rdByte_atRest {r : Reader} (h : r.acc.atRest) : (rdByte r).2.acc.atRest := by
  rw [rdByte_snd]; exact rdBits_atRest 8 h

theorem ne_sentinel_of_lt {v : Word} (h : v.toNat < 256) : v ≠ Config.sentinel := by
  rintro rfl
  simp [Config.sentinel] at h

/-- RDBUF's loop: the sentinel or a count below `n`, the elements asked for, follows an EOD. -/
theorem fillLoop_answers (offset left i : Nat) (r : Reader) (b : BufferSpace) :
    ∃ rs, (fillLoop offset left i r b).2.1.port.trace = r.port.trace ++ rs ∧
      ReadAnswers (fun x => ∃ v, x = Response.ok v ∧ (v = Config.sentinel ∨ v.toNat < left + i)) rs
        (fillLoop offset left i r b).1 := by
  induction left generalizing i r b with
  | zero => exact ⟨[], by simp [fillLoop], .ok _ allBytes_nil⟩
  | succ left ih =>
    obtain ⟨rs, ht, hr⟩ := rdByte_answers r
    unfold fillLoop
    rcases hx : rdByte r with ⟨e, r'⟩
    rw [hx] at ht hr
    simp only at ht hr
    cases hr with
    | ok v h =>
      simp only [ok_code, ne_eq, not_true, if_false, ok_value]
      by_cases hv : v = Config.sentinel <;> simp only [hv, if_true, if_false]
      · exact ⟨rs, ht, .ok _ h⟩
      · obtain ⟨rs', ht', hr'⟩ := ih (i + 1) r' (b.write .br (offset + i) (v.setWidth 8))
        refine ⟨rs ++ rs', by rw [ht', ht, List.append_assoc], ?_⟩
        rw [show left + 1 + i = left + (i + 1) by omega]
        exact hr'.after h
    | eod x xs h hE e =>
      subst hE
      simp only [ok_code, ne_eq, not_true, if_false, ok_value, if_true]
      refine ⟨rs, ht, .eod _ xs h ⟨_, rfl, ?_⟩ e⟩
      split
      · exact .inl rfl
      · right
        rw [BitVec.toNat_ofNat]
        exact lt_of_le_of_lt (Nat.mod_le _ _) (by omega)
    | ioerr xs h e => exact ⟨rs, by simpa [raise, ErrorKind.code] using ht, .ioerr xs h e⟩
    | unanswered h => exact ⟨rs, ht, .unanswered h⟩

/-- SKIP's loop: a count below `n`, the bytes asked for, follows an EOD. -/
theorem skipLoop_answers (left cnt : Nat) (r : Reader) :
    ∃ rs, (skipLoop left cnt r).2.port.trace = r.port.trace ++ rs ∧
      ReadAnswers (fun x => ∃ v, x = Response.ok v ∧ v.toNat < left + cnt) rs (skipLoop left cnt r).1 := by
  induction left generalizing cnt r with
  | zero => exact ⟨[], by simp [skipLoop], .ok _ allBytes_nil⟩
  | succ left ih =>
    obtain ⟨rs, ht, hr⟩ := rdByte_answers r
    unfold skipLoop
    rcases hx : rdByte r with ⟨e, r'⟩
    rw [hx] at ht hr
    simp only at ht hr
    cases hr with
    | ok v h =>
      simp only [ok_code, ne_eq, not_true, if_false, ok_value]
      by_cases hv : v = Config.sentinel <;> simp only [hv, if_true, if_false]
      · exact ⟨rs, ht, .ok _ h⟩
      · obtain ⟨rs', ht', hr'⟩ := ih (cnt + 1) r'
        refine ⟨rs ++ rs', by rw [ht', ht, List.append_assoc], ?_⟩
        rw [show left + 1 + cnt = left + (cnt + 1) by omega]
        exact hr'.after h
    | eod x xs h hE e =>
      subst hE
      simp only [ok_code, ne_eq, not_true, if_false, ok_value, if_true]
      refine ⟨rs, ht, .eod _ xs h ⟨_, rfl, ?_⟩ e⟩
      rw [BitVec.toNat_ofNat]
      exact lt_of_le_of_lt (Nat.mod_le _ _) (by omega)
    | ioerr xs h e => exact ⟨rs, by simpa [raise, ErrorKind.code] using ht, .ioerr xs h e⟩
    | unanswered h => exact ⟨rs, ht, .unanswered h⟩

theorem fillLoop_atRest (offset left i : Nat) {r : Reader} (b : BufferSpace) (h : r.acc.atRest) :
    (fillLoop offset left i r b).2.1.acc.atRest := by
  induction left generalizing i r b with
  | zero => exact h
  | succ left ih =>
    have h' := rdByte_atRest h
    unfold fillLoop
    rcases hx : rdByte r with ⟨x | q, r'⟩ <;> rw [hx] at h' <;> simp only at h' ⊢
    · split
      · exact h'
      · split
        · exact h'
        · exact ih _ _ h'
    · exact h'

theorem skipLoop_atRest (left cnt : Nat) {r : Reader} (h : r.acc.atRest) : (skipLoop left cnt r).2.acc.atRest := by
  induction left generalizing cnt r with
  | zero => exact h
  | succ left ih =>
    have h' := rdByte_atRest h
    unfold skipLoop
    rcases hx : rdByte r with ⟨x | q, r'⟩ <;> rw [hx] at h' <;> simp only at h' ⊢
    · split
      · exact h'
      · split
        · exact h'
        · exact ih _ h'
    · exact h'

/-- RDBUF's loop keeps the canonical form and stores nowhere but in what is left of its transfer. -/
theorem fillLoop_frame (offset left i : Nat) (r : Reader) {b : BufferSpace} (hb : b.wf) (ho : offset + left + i ≤ 2 ^ 32) :
    (fillLoop offset left i r b).2.2.wf ∧
      ∀ (u : UnitId) (a : Nat), (a < offset + i ∨ offset + i + left ≤ a) →
        (fillLoop offset left i r b).2.2.read u a = b.read u a := by
  induction left generalizing i r b with
  | zero => exact ⟨hb, fun _ _ _ => rfl⟩
  | succ left ih =>
    unfold fillLoop
    rcases rdByte r with ⟨x | q, r'⟩ <;> simp only
    · split
      · exact ⟨hb, fun _ _ _ => rfl⟩
      · split
        · exact ⟨hb, fun _ _ _ => rfl⟩
        · obtain ⟨hw, hr⟩ := ih (i + 1) r' (BufferSpace.wf_write hb .br (show offset + i < 2 ^ 32 by omega) (x.value.setWidth 8))
            (by omega)
          exact ⟨hw, fun u a ha => by rw [hr u a (by omega), BufferSpace.read_write_other hb _ _ _ (by omega)]⟩
    · exact ⟨hb, fun _ _ _ => trivial⟩

theorem elements_succ (b : BufferSpace) (u : UnitId) (a n : Nat) :
    b.elements u a (n + 1) = b.read u a :: b.elements u (a + 1) n := by
  simp [BufferSpace.elements, List.range_succ_eq_map, Function.comp_def, Nat.add_assoc, Nat.add_comm 1]

/-- RDBUF's loop on a source that yields `bs` next: those elements are stored, and the loop goes on with what is left. -/
theorem fillLoop_fed (Q : List Byte → SourcePort → Prop)
    (hQ : ∀ b bs p, Q (b :: bs) p → ∃ q, sourceRead p = (some (.byte b), q) ∧ Q bs q) (offset more i : Nat) (bs : List Byte)
    (r : Reader) (b : BufferSpace) (h : r.acc.atRest) (hb : b.wf) (ho : offset + bs.length + i ≤ 2 ^ 32) (hs : Q bs r.port) :
    ∃ r' b' data, fillLoop offset (bs.length + more) i r b = fillLoop offset more (i + bs.length) r' b' ∧ Q [] r'.port ∧
      r'.acc.atRest ∧ b'.wf ∧ r'.acc.occ = r.acc.occ ∧ r'.port.trace = r.port.trace ++ readEvents bs ∧
      b'.elements .br (offset + i) bs.length = data ∧ r.acc.pending ++ byteBits bs = byteBits data ++ r'.acc.pending ∧
      ∀ (u : UnitId) (a : Nat), (a < offset + i ∨ offset + i + bs.length ≤ a) → b'.read u a = b.read u a := by
  induction bs generalizing i r b with
  | nil => exact ⟨r, b, _, by simp, hs, h, hb, rfl, by simp [readEvents], rfl, by simp [BufferSpace.elements], fun _ _ _ => rfl⟩
  | cons c bs ih =>
    simp only [List.length_cons] at ho ⊢
    obtain ⟨v, hv, hlt, hbits, hocc, hrest, ht, hq⟩ := rdByte_fed Q hQ h hs
    obtain ⟨r', b', data, hf, hq', hrest', hw, hocc', ht', hel, hbits', hfr⟩ := ih (i + 1) (rdByte r).2
      (b.write .br (offset + i) (v.setWidth 8)) hrest (BufferSpace.wf_write hb _ (by omega) _) (by omega) hq
    refine ⟨r', b', v.setWidth 8 :: data, ?_, hq', hrest', hw, hocc'.trans hocc, ?_, ?_, ?_, ?_⟩
    · rw [show bs.length + 1 + more = (bs.length + more) + 1 by omega]
      conv => lhs; unfold fillLoop
      rcases hx : rdByte r with ⟨e, q⟩
      rw [hx] at hv
      simp only at hv
      subst hv
      simp only [ok_code, ne_eq, not_true, if_false, ok_value, ne_sentinel_of_lt hlt]
      rw [hx] at hf
      rw [hf, show i + 1 + bs.length = i + (bs.length + 1) by omega]
    · rw [ht', ht]; simp [readEvents]
    · rw [elements_succ, hfr _ _ (by omega), show offset + i + 1 = offset + (i + 1) by omega, hel,
        BufferSpace.read_write_same hb]
      simp
    · rw [byteBits_cons, ← List.append_assoc, hbits, List.append_assoc, hbits', byteBits_cons, List.append_assoc,
        show (v.setWidth 8).toNat = v.toNat by rw [BitVec.toNat_setWidth]; exact Nat.mod_eq_of_lt hlt]
    · intro u a ha
      rw [hfr u a (by omega), BufferSpace.read_write_other hb _ _ _ (by omega)]

/-- SKIP's loop on a source that yields `bs` next. -/
theorem skipLoop_fed (Q : List Byte → SourcePort → Prop)
    (hQ : ∀ b bs p, Q (b :: bs) p → ∃ q, sourceRead p = (some (.byte b), q) ∧ Q bs q) (more cnt : Nat) (bs : List Byte)
    (r : Reader) (h : r.acc.atRest) (hs : Q bs r.port) :
    ∃ r' gone, skipLoop (bs.length + more) cnt r = skipLoop more (cnt + bs.length) r' ∧ Q [] r'.port ∧ r'.acc.atRest ∧
      r'.acc.occ = r.acc.occ ∧ r'.port.trace = r.port.trace ++ readEvents bs ∧ List.length gone = 8 * bs.length ∧
      r.acc.pending ++ byteBits bs = gone ++ r'.acc.pending := by
  induction bs generalizing cnt r with
  | nil => exact ⟨r, [], by simp, hs, h, rfl, by simp [readEvents], rfl, by simp⟩
  | cons c bs ih =>
    simp only [List.length_cons]
    obtain ⟨v, hv, hlt, hbits, hocc, hrest, ht, hq⟩ := rdByte_fed Q hQ h hs
    obtain ⟨r', gone, hf, hq', hrest', hocc', ht', hl, hbits'⟩ := ih (cnt + 1) (rdByte r).2 hrest hq
    refine ⟨r', bitsOf 8 v.toNat ++ gone, ?_, hq', hrest', hocc'.trans hocc, ?_, ?_, ?_⟩
    · rw [show bs.length + 1 + more = (bs.length + more) + 1 by omega]
      conv => lhs; unfold skipLoop
      rcases hx : rdByte r with ⟨e, q⟩
      rw [hx] at hv
      simp only at hv
      subst hv
      simp only [ok_code, ne_eq, not_true, if_false, ok_value, ne_sentinel_of_lt hlt]
      rw [hx] at hf
      rw [hf, show cnt + 1 + bs.length = cnt + (bs.length + 1) by omega]
    · rw [ht', ht]; simp [readEvents]
    · rw [List.length_append, length_bitsOf, hl]; omega
    · rw [byteBits_cons, ← List.append_assoc, hbits, List.append_assoc, hbits', List.append_assoc]

/-- MARK's transaction: accepted, or never answered. -/
theorem markSource_cases (l : Word) (r : Reader) :
    (∃ p, markSource l r = (.done (Response.ok 0), { acc := r.acc, port := p }) ∧ sourceMark l r.port = (some .ok, p) ∧
      p.trace = r.port.trace ++ [.mark l .ok]) ∨
    ∃ p, markSource l r = (.blocked (.mark l), { acc := r.acc, port := p }) ∧ p.trace = r.port.trace := by
  unfold markSource
  rcases hs : sourceMark l r.port with ⟨_ | ⟨⟩, p⟩
  · refine .inr ⟨p, rfl, ?_⟩
    simp only [sourceMark, Prod.mk.injEq] at hs
    rw [← hs.2, hs.1]; simp
  · exact .inl ⟨p, rfl, rfl, sourceMark_trace hs⟩

/-- RESET's transaction: accepted, refused, or never answered. -/
theorem resetSource_cases (snap : Accum) (r : Reader) :
    (∃ p, resetSource snap r = (.done (Response.ok 0), { acc := snap, port := p }) ∧ sourceReset r.port = (some .ok, p) ∧
      p.trace = r.port.trace ++ [.reset .ok]) ∨
    (∃ p, resetSource snap r = (.done (raise .ioError), { acc := r.acc, port := p }) ∧
      sourceReset r.port = (some .ioerr, p) ∧ p.trace = r.port.trace ++ [.reset .ioerr]) ∨
    ∃ p, resetSource snap r = (.blocked .reset, { acc := r.acc, port := p }) ∧ p.trace = r.port.trace := by
  unfold resetSource
  rcases hs : sourceReset r.port with ⟨_ | (_ | _), p⟩
  · refine .inr (.inr ⟨p, rfl, ?_⟩)
    simp only [sourceReset, Prod.mk.injEq] at hs
    rw [← hs.2, hs.1]; simp
  · exact .inl ⟨p, rfl, rfl, sourceReset_trace hs⟩
  · exact .inr (.inl ⟨p, rfl, rfl, sourceReset_trace hs⟩)

/-! ## Ends of writing commands (40_bitwriter.md R74, R76, R79) -/

/-- How a writing command other than WCLOSE ends on the transactions `ws` it made. -/
inductive WriteAnswers (ws : List SinkEvent) : Ending SinkReq → Prop
  | ok (h : ∀ e ∈ ws, e.ack = .ok) : WriteAnswers ws (.done (Response.ok 0))
  | ioerr (e : SinkEvent) (he : e ∈ ws) (h : e.ack = .ioerr) : WriteAnswers ws (.done (raise .ioError))
  | unanswered (q : SinkReq) (h : ∀ e ∈ ws, e.ack = .ok) : WriteAnswers ws (.blocked q)

theorem WriteAnswers.after {xs ws : List SinkEvent} {e : Ending SinkReq} (h : WriteAnswers ws e)
    (hx : ∀ e ∈ xs, e.ack = .ok) : WriteAnswers (xs ++ ws) e := by
  cases h with
  | ok h => exact .ok fun e he => (List.mem_append.1 he).elim (hx e) (h e)
  | ioerr e he h => exact .ioerr e (List.mem_append_right _ he) h
  | unanswered q h => exact .unanswered q fun e he => (List.mem_append.1 he).elim (hx e) (h e)

theorem writeLoop_answers (fuel value rem : Nat) (w : Writer) :
    ∃ ws, (writeLoop fuel value rem w).2.port.trace = w.port.trace ++ ws ∧ WriteAnswers ws (writeLoop fuel value rem w).1 := by
  induction fuel generalizing rem w with
  | zero => exact ⟨[], by simp [writeLoop], .ok (by simp)⟩
  | succ fuel ih =>
    unfold writeLoop
    split
    · exact ⟨[], by simp, .ok (by simp)⟩
    · simp only
      split
      · split
        · rename_i p hp
          obtain ⟨ws, ht, hw⟩ := ih (rem - w.acc.chunkIn rem) { acc := Accum.empty, port := p }
          exact ⟨[⟨.write (w.acc.append value rem).buf, .ok⟩] ++ ws,
            by simp only [ht, sinkTransact_trace hp, List.append_assoc], hw.after (by simp)⟩
        · rename_i p hp
          exact ⟨_, sinkTransact_trace hp, .ioerr _ (List.mem_singleton_self _) rfl⟩
        · rename_i p hp
          exact ⟨[], by simp [sinkTransact_unanswered hp], .unanswered _ (by simp)⟩
      · exact ih _ _

/-- WRBITS, valid. -/
theorem wrBits_answers {v : Word} {n : Nat} (hn : 1 ≤ n ∧ n ≤ 32) (hv : v.toNat ≤ 2 ^ n - 1) (w : Writer) :
    ∃ ws, (wrBits v n w).2.port.trace = w.port.trace ++ ws ∧ WriteAnswers ws (wrBits v n w).1 := by
  rw [wrBits_valid hn hv]
  exact writeLoop_answers _ _ _ _

/-- The low byte of ARG0 fits in eight bits (R75). -/
theorem byte_fits (r : HostRegs) : r.byte.toNat = r.arg0.toNat % 256 ∧ r.byte.toNat ≤ 2 ^ 8 - 1 := by
  have h : r.byte.toNat = r.arg0.toNat % 256 := by
    rw [HostRegs.byte, BitVec.toNat_and]
    exact Nat.and_two_pow_sub_one_eq_mod _ 8
  exact ⟨h, by omega⟩

/-- An element of a transfer, zero-extended, fits in eight bits (R76). -/
theorem element_fits (b : Byte) : (b.setWidth 32).toNat = b.toNat ∧ (b.setWidth 32).toNat ≤ 2 ^ 8 - 1 := by
  have := b.isLt
  constructor <;> simp <;> omega

theorem wrBytes_answers (b : BufferSpace) (a n : Nat) (w : Writer) :
    ∃ ws, (wrBytes b a n w).2.port.trace = w.port.trace ++ ws ∧ WriteAnswers ws (wrBytes b a n w).1 := by
  induction n generalizing a w with
  | zero => exact ⟨[], by simp [wrBytes], .ok (by simp)⟩
  | succ n ih =>
    obtain ⟨ws, ht, hw⟩ := wrBits_answers (n := 8) (by decide) (element_fits (b.read .bw a)).2 w
    unfold wrBytes wrByte
    rcases hx : wrBits ((b.read .bw a).setWidth 32) 8 w with ⟨e, w'⟩
    rw [hx] at ht hw
    simp only at ht hw
    cases hw with
    | ok h =>
      simp only [ok_code, if_true]
      obtain ⟨ws', ht', hw'⟩ := ih (a + 1) w'
      exact ⟨ws ++ ws', by rw [ht', ht, List.append_assoc], hw'.after h⟩
    | ioerr e he h => exact ⟨ws, ht, .ioerr e he h⟩
    | unanswered q h => exact ⟨ws, ht, .unanswered q h⟩

/-- Every end of WRBUF's loop, from a legal accumulator: what is appended is a first part of the elements, all of them when
it ends OK, and then the accumulator holds as many bits as before. -/
theorem wrBytes_cases (b : BufferSpace) (a n : Nat) (w : Writer) (h : w.acc.legal) :
    (wrBytes b a n w).2.acc.legal ∧
      ∃ j, (wrBytes b a n w).2.out = w.out ++ (byteBits (b.elements .bw a n)).take j ∧
        (((wrBytes b a n w).1 = .done (Response.ok 0) ∧ 8 * n ≤ j ∧
            (w.acc.occ ≤ 7 → (wrBytes b a n w).2.acc.occ = w.acc.occ)) ∨
          ((wrBytes b a n w).1 = .done (raise .ioError) ∧ (wrBytes b a n w).2.acc.occ = 8) ∨
          ((wrBytes b a n w).1 = .blocked (.write (wrBytes b a n w).2.acc.buf) ∧ (wrBytes b a n w).2.acc.occ = 8)) := by
  induction n generalizing a w with
  | zero => exact ⟨h, 0, by simp [wrBytes], .inl ⟨rfl, by omega, fun _ => rfl⟩⟩
  | succ n ih =>
    have hfit := element_fits (b.read .bw a)
    obtain ⟨hl, es, j, hj, ho, hes, hc⟩ := wrBits_cases (n := 8) (by decide) hfit.2 h
    rw [elements_succ, byteBits_cons]
    rw [hfit.1] at ho
    unfold wrBytes wrByte
    generalize hx : wrBits ((b.read .bw a).setWidth 32) 8 w = x at *
    obtain ⟨e, w'⟩ := x
    have htake : ∀ {j : Nat} {bs : List Bool}, j ≤ 8 →
        (bitsOf 8 (b.read .bw a).toNat ++ bs).take j = (bitsOf 8 (b.read .bw a).toNat).take j := fun {j bs} hj => by
      rw [List.take_append, length_bitsOf, show j - 8 = 0 by omega, List.take_zero, List.append_nil]
    rcases hc with ⟨hd, rfl, ht, hm, -⟩ | ⟨hd, h8, ht⟩ | ⟨hd, h8, ht⟩ <;> simp only at hd <;> subst hd <;> simp only
    · simp only [ok_code, if_true]
      obtain ⟨hl', j', ho', hc'⟩ := ih (a + 1) w' hl
      refine ⟨hl', 8 + j', ?_, ?_⟩
      · have hall : (bitsOf 8 (b.read .bw a).toNat).take 8 = bitsOf 8 (b.read .bw a).toNat :=
          List.take_of_length_le (by simp)
        have hmore : (bitsOf 8 (b.read .bw a).toNat).take (8 + j') = bitsOf 8 (b.read .bw a).toNat :=
          List.take_of_length_le (by simp)
        rw [ho', ho, hall, List.take_append, hmore, length_bitsOf, Nat.add_sub_cancel_left, List.append_assoc]
      · rcases hc' with ⟨hd, hj', hocc⟩ | hc' | hc'
        · refine .inl ⟨hd, by omega, fun h7 => ?_⟩
          have hocc' : w'.acc.occ = w.acc.occ := by
            have := (hm (by omega)).1
            simp only at this
            omega
          rw [hocc (by omega), hocc']
        · exact .inr (.inl hc')
        · exact .inr (.inr hc')
    · exact ⟨hl, j, by rw [htake hj]; exact ho, .inr (.inl ⟨rfl, h8⟩)⟩
    · exact ⟨hl, j, by rw [htake hj]; exact ho, .inr (.inr ⟨trivial, h8⟩)⟩

/-- WRBUF's loop on a willing sink ends OK. -/
theorem wrBytes_completes (b : BufferSpace) (a n : Nat) (w : Writer) (h : w.acc.legal)
    (hw : w.port.willing ((w.acc.occ + 8 * n) / 8)) : (wrBytes b a n w).1 = .done (Response.ok 0) := by
  induction n generalizing a w with
  | zero => rfl
  | succ n ih =>
    have hfit := element_fits (b.read .bw a)
    have hn : (w.acc.occ + 8 * (n + 1)) / 8 = (w.acc.occ + 8) / 8 + n := by omega
    obtain ⟨hd, hrest⟩ := wrBits_completes (n := 8) (by decide) hfit.2 h (willing_mono hw (by omega))
    rw [hn] at hw
    replace hrest := hrest _ hw
    obtain ⟨hl, es, j, hj, ho, hes, hc⟩ := wrBits_cases (n := 8) (by decide) hfit.2 h
    unfold wrBytes wrByte
    generalize hx : wrBits ((b.read .bw a).setWidth 32) 8 w = x at *
    obtain ⟨e, w'⟩ := x
    simp only at hd
    subst hd
    simp only [ok_code, if_true]
    rcases hc with ⟨-, -, ht, hm, -⟩ | ⟨hx, -⟩ | ⟨hx, -⟩
    · refine ih _ _ hl (willing_mono hrest ?_)
      have := (hm (by omega)).1
      simp only at this
      omega
    · simp [Response.ok, raise, ErrorKind.code] at hx
    · cases hx

/-- WCLOSE's steps: the accumulator stays; the requests are made in order and each answer recorded; the command fails when an
answer was IOERR, or one before them (`failed`); it stops at the first request that is never answered. -/
theorem closeSteps_cases (rs : List SinkReq) (failed : Bool) (w : Writer) :
    (closeSteps rs failed w).2.acc = w.acc ∧
      ∃ acks : List Ack,
        (closeSteps rs failed w).2.port.trace =
          w.port.trace ++ (rs.zip acks).map (fun x => { req := x.1, ack := x.2 }) ∧
        (((closeSteps rs failed w).1 =
            .done (if failed = true ∨ .ioerr ∈ acks then raise .ioError else Response.ok 0) ∧ acks.length = rs.length) ∨
          ∃ q, (closeSteps rs failed w).1 = .blocked q ∧ rs[acks.length]? = some q) := by
  induction rs generalizing failed w with
  | nil => exact ⟨rfl, [], by simp [closeSteps], .inl ⟨by simp [closeSteps], rfl⟩⟩
  | cons r rs ih =>
    unfold closeSteps
    rcases hs : sinkTransact r w.port with ⟨_ | a, p⟩
    · exact ⟨rfl, [], by simp [sinkTransact_unanswered hs], .inr ⟨r, rfl, rfl⟩⟩
    · obtain ⟨ha, acks, ht, hc⟩ := ih (failed || a == .ioerr) { acc := w.acc, port := p }
      refine ⟨ha, a :: acks, by simp only [ht, sinkTransact_trace hs]; simp, ?_⟩
      rcases hc with ⟨hd, hl⟩ | ⟨q, hq, hi⟩
      · exact .inl ⟨by simp only [hd]; cases a <;> simp, by simp [hl]⟩
      · exact .inr ⟨q, hq, by simpa using hi⟩

/-- WCLOSE's steps on a willing sink, the close being the last of them, end OK. -/
theorem closeSteps_completes (rs : List SinkReq) (w : Writer) (hw : w.port.willing rs.length)
    (hc : ∀ i, rs[i]? = some .close → i + 1 = rs.length) : (closeSteps rs false w).1 = .done (Response.ok 0) := by
  induction rs generalizing w with
  | nil => rfl
  | cons r rs ih =>
    obtain ⟨q, hq, hq'⟩ := sinkTransact_willing (m := rs.length) (by simpa using hw) r
    unfold closeSteps
    rw [hq]
    simp only
    rw [show (false || Ack.ok == Ack.ioerr) = false from rfl]
    by_cases hr : r = .close
    · have hl := hc 0 (by simp [hr])
      have : rs = [] := by simpa using hl
      subst this
      rfl
    · exact ih { acc := w.acc, port := q } (hq' hr) fun i hi => by simpa using hc (i + 1) (by simpa using hi)

end Sys2Proof.Machine
end

