-- ==== Sys2Proof/Laws/Answered.lean ====
section
/-! SUPPORT. Requests and answers are counted: a command that completes has had every request of it answered, and one that
waits has exactly one that was not (20_memory.md R42(b), 70_reset_and_hazards.md R151). From every state, legal or not. -/

namespace Sys2Proof.Machine

/-- How many requests an ending leaves unanswered. -/
def Ending.owed {ρ : Type} : Ending ρ → Nat
  | .done _ => 0
  | .blocked _ => 1

@[simp] theorem done_owed {ρ : Type} (x : Response) : (Ending.done (ρ := ρ) x).owed = 0 := rfl
@[simp] theorem blocked_owed {ρ : Type} (q : ρ) : (Ending.blocked q).owed = 1 := rfl

/-- From the port `p` to the port `q`, `n` more requests were made than answered. -/
abbrev SinkPort.Owes (p q : SinkPort) (n : Nat) : Prop := q.asked + p.trace.length = p.asked + q.trace.length + n

/-- From the port `p` to the port `q`, `n` more requests were made than answered. -/
abbrev SourcePort.Owes (p q : SourcePort) (n : Nat) : Prop := q.asked + p.trace.length = p.asked + q.trace.length + n

/-! ## One transaction -/

theorem sinkTransact_owes {r : SinkReq} {p q : SinkPort} {a : Option Ack} (h : sinkTransact r p = (a, q)) :
    p.Owes q (if a = none then 1 else 0) := by
  injection h with h1 h2
  subst h2
  cases a <;> simp [SinkPort.Owes, h1] <;> omega

theorem sourceRead_owes {p q : SourcePort} {a : Option ReadAnswer} (h : sourceRead p = (a, q)) :
    p.Owes q (if a = none then 1 else 0) := by
  injection h with h1 h2
  subst h2
  cases a <;> simp [SourcePort.Owes, h1] <;> omega

theorem sourceMark_owes {l : Word} {p q : SourcePort} {a : Option MarkAck} (h : sourceMark l p = (a, q)) :
    p.Owes q (if a = none then 1 else 0) := by
  injection h with h1 h2
  subst h2
  cases a <;> simp [SourcePort.Owes, h1] <;> omega

theorem sourceReset_owes {p q : SourcePort} {a : Option Ack} (h : sourceReset p = (a, q)) :
    p.Owes q (if a = none then 1 else 0) := by
  injection h with h1 h2
  subst h2
  cases a <;> simp [SourcePort.Owes, h1] <;> omega

/-! ## The writing commands -/

theorem writeLoop_owes (fuel value rem : Nat) (w : Writer) :
    w.port.Owes (writeLoop fuel value rem w).2.port (writeLoop fuel value rem w).1.owed := by
  induction fuel generalizing rem w with
  | zero => rfl
  | succ fuel ih =>
    unfold writeLoop
    split
    · rfl
    · simp only
      split
      · split
        · rename_i p hp
          have h1 := sinkTransact_owes hp
          have h2 := ih (rem - w.acc.chunkIn rem) { acc := Accum.empty, port := p }
          simp only [reduceCtorEq, if_false, SinkPort.Owes] at h1 h2 ⊢
          omega
        · exact sinkTransact_owes (by assumption)
        · exact sinkTransact_owes (by assumption)
      · exact ih _ _

theorem wrBits_owes (v : Word) (n : Nat) (w : Writer) : w.port.Owes (wrBits v n w).2.port (wrBits v n w).1.owed := by
  unfold wrBits
  split
  · exact writeLoop_owes _ _ _ _
  · rfl

theorem wrBytes_owes (b : BufferSpace) (a n : Nat) (w : Writer) :
    w.port.Owes (wrBytes b a n w).2.port (wrBytes b a n w).1.owed := by
  induction n generalizing a w with
  | zero => rfl
  | succ n ih =>
    have h1 := wrBits_owes ((b.read .bw a).setWidth 32) 8 w
    unfold wrBytes wrByte
    rcases hx : wrBits ((b.read .bw a).setWidth 32) 8 w with ⟨x | q, w'⟩ <;> rw [hx] at h1
    · simp only
      split
      · have h2 := ih (a + 1) w'
        simp only [SinkPort.Owes, done_owed] at h1 h2 ⊢
        omega
      · exact h1
    · exact h1

theorem wrBuf_owes (b : BufferSpace) (o l : Word) (w : Writer) : w.port.Owes (wrBuf b o l w).2.port (wrBuf b o l w).1.owed := by
  unfold wrBuf
  split
  · exact wrBytes_owes _ _ _ _
  · rfl

theorem closeSteps_owes (rs : List SinkReq) (failed : Bool) (w : Writer) :
    w.port.Owes (closeSteps rs failed w).2.port (closeSteps rs failed w).1.owed := by
  induction rs generalizing failed w with
  | nil => rfl
  | cons r rs ih =>
    unfold closeSteps
    rcases hs : sinkTransact r w.port with ⟨_ | a, p⟩
    · exact sinkTransact_owes hs
    · have h1 := sinkTransact_owes hs
      have h2 := ih (failed || a == .ioerr) { acc := w.acc, port := p }
      simp only [reduceCtorEq, if_false, SinkPort.Owes] at h1 h2 ⊢
      omega

/-! ## The reading commands -/

theorem readLoop_owes (fuel rem result : Nat) (r : Reader) :
    r.port.Owes (readLoop fuel rem result r).2.port (readLoop fuel rem result r).1.owed := by
  induction fuel generalizing rem result r with
  | zero => rfl
  | succ fuel ih =>
    unfold readLoop
    split
    · rfl
    · unfold refill
      by_cases hocc : r.acc.occ = 0
      · rw [if_pos hocc]
        rcases hs : sourceRead r.port with ⟨_ | _ | _ | _, p⟩ <;> have h1 := sourceRead_owes hs <;> simp only
        · exact h1
        · rename_i b
          have h2 := ih (rem - (Accum.mk 8 b).chunkOut rem)
            ((result <<< (Accum.mk 8 b).chunkOut rem) ||| (Accum.mk 8 b).top ((Accum.mk 8 b).chunkOut rem))
            ⟨(Accum.mk 8 b).drop ((Accum.mk 8 b).chunkOut rem), p⟩
          simp only [reduceCtorEq, if_false, SourcePort.Owes] at h1 h2 ⊢
          omega
        · exact h1
        · exact h1
      · rw [if_neg hocc]
        exact ih _ _ _

theorem rdBits_owes (n : Nat) (r : Reader) : r.port.Owes (rdBits n r).2.port (rdBits n r).1.owed := by
  unfold rdBits
  split
  · exact readLoop_owes _ _ _ _
  · rfl

theorem rdByte_owes (r : Reader) : r.port.Owes (rdByte r).2.port (rdByte r).1.owed := by
  have h := rdBits_owes 8 r
  rw [rdByte_eq]
  rcases hx : rdBits 8 r with ⟨x | q, r'⟩ <;> rw [hx] at h <;> exact h

theorem fillLoop_owes (offset left i : Nat) (r : Reader) (b : BufferSpace) :
    r.port.Owes (fillLoop offset left i r b).2.1.port (fillLoop offset left i r b).1.owed := by
  induction left generalizing i r b with
  | zero => rfl
  | succ left ih =>
    have h1 := rdByte_owes r
    unfold fillLoop
    rcases hx : rdByte r with ⟨x | q, r'⟩ <;> rw [hx] at h1 <;> simp only
    · split
      · exact h1
      · split
        · exact h1
        · have h2 := ih (i + 1) r' (b.write .br (offset + i) (x.value.setWidth 8))
          simp only [done_owed, SourcePort.Owes] at h1 h2 ⊢
          omega
    · exact h1

theorem rdBuf_owes (o l : Word) (r : Reader) (b : BufferSpace) :
    r.port.Owes (rdBuf o l r b).2.1.port (rdBuf o l r b).1.owed := by
  unfold rdBuf
  split
  · exact fillLoop_owes _ _ _ _ _
  · rfl

theorem skipLoop_owes (left cnt : Nat) (r : Reader) :
    r.port.Owes (skipLoop left cnt r).2.port (skipLoop left cnt r).1.owed := by
  induction left generalizing cnt r with
  | zero => rfl
  | succ left ih =>
    have h1 := rdByte_owes r
    unfold skipLoop
    rcases hx : rdByte r with ⟨x | q, r'⟩ <;> rw [hx] at h1 <;> simp only
    · split
      · exact h1
      · split
        · exact h1
        · have h2 := ih (cnt + 1) r'
          simp only [done_owed, SourcePort.Owes] at h1 h2 ⊢
          omega
    · exact h1

theorem markSource_owes (l : Word) (r : Reader) : r.port.Owes (markSource l r).2.port (markSource l r).1.owed := by
  unfold markSource
  rcases hs : sourceMark l r.port with ⟨_ | ⟨⟩, p⟩ <;> exact sourceMark_owes hs

theorem resetSource_owes (snap : Accum) (r : Reader) :
    r.port.Owes (resetSource snap r).2.port (resetSource snap r).1.owed := by
  unfold resetSource
  rcases hs : sourceReset r.port with ⟨_ | (_ | _), p⟩ <;> exact sourceReset_owes hs

end Sys2Proof.Machine
end

