-- ==== Sys2Proof/Laws/HostPort.lean ====
section
/-! SUPPORT. Where a host access lands: the register at an offset (10_state.md R18) and at an address (20_memory.md R45),
once each, and that nothing moves the register blocks. -/

namespace Sys2Proof.Machine

/-! ## Offsets and addresses -/

theorem atDistance_iff (d : Nat) (reg : HostReg) : HostReg.atDistance d = some reg ↔ d = reg.offset.toNat := by
  constructor
  · unfold HostReg.atDistance
    split <;> intro h <;> cases h <;> rfl
  · rintro rfl
    cases reg <;> rfl

@[simp] theorem atOffset_offset (reg : HostReg) : HostReg.atOffset reg.offset = some reg :=
  (atDistance_iff _ _).2 rfl

theorem atOffset_iff (o : Word) (reg : HostReg) : HostReg.atOffset o = some reg ↔ o = reg.offset := by
  rw [HostReg.atOffset, atDistance_iff, BitVec.toNat_inj]

theorem base_aligned (m : AddressMap) (u : UnitId) : 4 ∣ m.base u := by
  cases u <;> exact Nat.dvd_mul_right _ _

theorem registerAt_iff (m : AddressMap) (u : UnitId) (a : Nat) (reg : HostReg) :
    m.registerAt u a = some reg ↔ a = m.base u + reg.offset.toNat := by
  unfold AddressMap.registerAt
  split
  · rw [atDistance_iff]; omega
  · simp only [reduceCtorEq, false_iff]; omega

theorem registerAt_none_iff (m : AddressMap) (u : UnitId) (a : Nat) :
    m.registerAt u a = none ↔ ∀ reg : HostReg, a ≠ m.base u + reg.offset.toNat := by
  rw [Option.eq_none_iff_forall_ne_some]
  exact forall_congr' fun reg => not_congr (registerAt_iff m u a reg)

/-- An address reaches a register of `u` when it is that register's and no register of the other unit is there. -/
theorem locate_iff (m : AddressMap) (a : Nat) (u : UnitId) (reg : HostReg) :
    m.locate a = some (u, reg) ↔
      a = m.base u + reg.offset.toNat ∧ ∀ (x : UnitId) (reg' : HostReg), a = m.base x + reg'.offset.toNat → x = u := by
  have key : m.locate a = some (u, reg) ↔ m.registerAt u a = some reg ∧ ∀ x, x ≠ u → m.registerAt x a = none := by
    unfold AddressMap.locate
    have hx : ∀ p : UnitId → Prop, (∀ x, p x) ↔ p .bw ∧ p .br := fun p =>
      ⟨fun h => ⟨h _, h _⟩, fun h x => by cases x; exacts [h.1, h.2]⟩
    rw [hx]
    cases u <;> rcases m.registerAt .bw a with _ | b <;> rcases m.registerAt .br a with _ | c <;> simp
  rw [key, registerAt_iff]
  refine and_congr_right fun _ => forall_congr' fun x => ?_
  rw [registerAt_none_iff]
  exact ⟨fun h reg' ha => by_contra fun hx => h hx reg' ha, fun h hx reg' ha => hx (h reg' ha)⟩

/-! ## The register blocks stay where they are -/

/-- No command moves a register block. -/
theorem exec_map (i : Instr) {s t : State} (h : exec i s = .next t) : t.map = s.map := by
  cases i <;> (injection h with h; subst h; rfl)

theorem issue_map {u : UnitId} {w : Word} {s t : State} (h : issue u w s = .next t) : t.map = s.map := by
  unfold issue at h
  split at h
  · injection h with h; rw [h]
  · split at h
    · exact (exec_map _ h).trans (withRegs_map _ _ _)
    · injection h with h; subst h
      exact (withRegs_map _ _ _).trans (withRegs_map _ _ _)

theorem writeRegister_map {u : UnitId} {reg : HostReg} {v : Word} {s t : State} (h : writeRegister u reg v s = .next t) :
    t.map = s.map := by
  cases reg
  case cmd => exact issue_map h
  all_goals (injection h with h; subst h; exact withRegs_map _ _ _)

theorem runEvent_map {e : Event} {s t : State} (h : runEvent e s = .next t) : t.map = s.map := by
  cases e <;> simp only [runEvent] at h
  case write | writeAt =>
    split at h
    · cases h
    · exact writeRegister_map h
  case read | readAt =>
    split at h
    · cases h
    · injection h with h; subst h; rfl
  case reset u => injection h with h; rw [← h]; cases u <;> rfl
  all_goals (injection h with h; subst h; rfl)

/-- No step moves a register block. -/
theorem step_map {s t : State} (h : step s = .next t) : t.map = s.map := by
  unfold step at h
  split at h
  · injection h with h; rw [h]
  · exact (runEvent_map h).trans rfl

end Sys2Proof.Machine
end

