-- ==== Sys2Proof/Laws/PerInstr.lean ====
section
/-! SUPPORT. The statement made of every command as syntax: the fields of its encoding (30_encoding.md R51, R52). -/

namespace Sys2Proof.Laws.EncodeFields

/-- The word of a well-formed command has its opcode in bits 31 to 24, its count in bits 7 to 0 and zeros between, and
the high nibble of the opcode names its unit. -/
def Statement (i : Instr) : Prop :=
  i.wellFormed = true →
    opcField (encode i) = i.opcode ∧ rsvField (encode i) = 0 ∧ (nField (encode i)).toNat = i.count ∧
      i.opcode.toNat / 16 = (match i.unit with | .bw => 1 | .br => 2)

theorem fields (opc : Byte) (n : Nat) :
    opcField (opc ++ 0#16 ++ BitVec.ofNat 8 n) = opc ∧ rsvField (opc ++ 0#16 ++ BitVec.ofNat 8 n) = 0 ∧
      nField (opc ++ 0#16 ++ BitVec.ofNat 8 n) = BitVec.ofNat 8 n := by
  refine ⟨?_, ?_, ?_⟩ <;> refine BitVec.eq_of_getLsbD_eq fun j hj => ?_
  · simp only [opcField, BitVec.getLsbD_extractLsb', BitVec.getLsbD_append]
    simp [hj, show ¬24 + j < 8 by omega, show ¬24 + j - 8 < 16 by omega, show 24 + j - 8 - 16 = j by omega]
  · simp only [rsvField, BitVec.getLsbD_extractLsb', BitVec.getLsbD_append]
    simp [show ¬8 + j < 8 by omega, hj]
  · simp only [nField, BitVec.getLsbD_extractLsb', BitVec.getLsbD_append]
    simp [hj]

theorem of_count (i : Instr) (hc : i.wellFormed = true → i.count ≤ 255)
    (hu : i.opcode.toNat / 16 = (match i.unit with | .bw => 1 | .br => 2)) : Statement i := fun h => by
  obtain ⟨h1, h2, h3⟩ := fields i.opcode i.count
  have := hc h
  exact ⟨h1, h2, by rw [encode, h3, BitVec.toNat_ofNat, Nat.mod_eq_of_lt (by omega)], hu⟩

theorem wrbits (n : Nat) : Statement (.wrbits n) := of_count _ (by simp [Instr.wellFormed, Instr.count]) (by simp [Instr.opcode, Instr.unit])
theorem wrbyte : Statement .wrbyte := of_count _ (fun _ => by decide) rfl
theorem wrbuf : Statement .wrbuf := of_count _ (fun _ => by decide) rfl
theorem wflush : Statement .wflush := of_count _ (fun _ => by decide) rfl
theorem wclose : Statement .wclose := of_count _ (fun _ => by decide) rfl
theorem rdbits (n : Nat) : Statement (.rdbits n) := of_count _ (by simp [Instr.wellFormed, Instr.count]) (by simp [Instr.opcode, Instr.unit])
theorem rdbyte : Statement .rdbyte := of_count _ (fun _ => by decide) rfl
theorem rdbuf : Statement .rdbuf := of_count _ (fun _ => by decide) rfl
theorem mark : Statement .mark := of_count _ (fun _ => by decide) rfl
theorem reset : Statement .reset := of_count _ (fun _ => by decide) rfl
theorem skip : Statement .skip := of_count _ (fun _ => by decide) rfl

end Sys2Proof.Laws.EncodeFields
end

