-- ==== Sys2Proof/Tests/Slice0.lean ====
section
/-! SUPPORT. Small tests and witnesses. Words are written out from 30_encoding.md R51 and R52; expected results are the
vectors of 95_test_vectors.md, cited by their names. A witness shows a state that meets the hypotheses of one statement. -/

open Sys2Proof Sys2Proof.Machine

/-! ## Helpers -/

/-- BW at an accumulator with operands, on the reference sink with the given failing ordinals, its words in 0x100 on. -/
def Tests.bwAt (a : Accum) (arg0 arg1 : Word) (failing : List Nat) : State :=
  { State.reset with
    bw := { BwUnit.reset with acc := a, regs := { HostRegs.reset with arg0 := arg0, arg1 := arg1 } }
    sink := { device := .reference ⟨[], true, 0, failing⟩, asked := 0, trace := [] }
    buffer := .shared [(0x100, 0x12), (0x101, 0x34)] }

/-- BR at an accumulator and a snapshot with operands, on a given source. -/
def Tests.brAt (a snap : Accum) (arg0 arg1 : Word) (d : SourceDevice) : State :=
  { State.reset with
    br := { BrUnit.reset with acc := a, snap := snap, regs := { HostRegs.reset with arg0 := arg0, arg1 := arg1 } }
    source := { device := d, asked := 0, trace := [] } }

/-- The reference source with these bytes left and no mark. -/
def Tests.src (bs : List Byte) : SourceDevice := .reference ⟨bs, 0, none⟩

/-- BR empty, its operands, and the bytes of its reference source. -/
def Tests.br0 (arg0 arg1 : Word) (bs : List Byte) : State :=
  Tests.brAt Accum.empty Accum.empty arg0 arg1 (Tests.src bs)

/-- A state with the next event of the host. -/
def Tests.next (e : Event) (s : State) : State := { s with host := [e] }

/-- The state after an outcome that is one. -/
def Tests.after : Host.Outcome State Fault Refusal → Option State
  | .next t => some t
  | .fault _ => none
  | .refused _ => none

/-- What a vector of BW gives: status, result, accumulator, trace. -/
def Tests.bwView (s : State) : Word × Word × Nat × Byte × List SinkEvent :=
  (s.bw.regs.status, s.bw.regs.result, s.bw.acc.occ, s.bw.acc.buf, s.sink.trace)

/-- What a vector of BR gives: status, result, accumulator, trace. -/
def Tests.brView (s : State) : Word × Word × Nat × Byte × List SourceEvent :=
  (s.br.regs.status, s.br.regs.result, s.br.acc.occ, s.br.acc.buf, s.source.trace)

/-- One step in which the host writes this word to `CMD` of BW. -/
def Tests.bwCmd (w : Word) (s : State) : Option State :=
  Tests.after (step (Tests.next (.write .bw 0x08 w) s))

/-- One step in which the host writes this word to `CMD` of BR. -/
def Tests.brCmd (w : Word) (s : State) : Option State :=
  Tests.after (step (Tests.next (.write .br 0x08 w) s))

/-! ## Well-formedness -/

theorem test_wrbits_count_too_wide_is_refused : (Instr.wrbits 256).wellFormed = false := by decide
theorem test_rdbits_count_too_wide_is_refused : (Instr.rdbits 256).wellFormed = false := by decide
theorem test_widest_counts_are_well_formed :
    (Instr.wrbits 255).wellFormed = true ∧ (Instr.rdbits 255).wellFormed = true := by decide

/-! ## Decoding: OPC, sixteen zero bits, N (R51, R52) -/

theorem test_decode_wrbits : decode 0b00010000_00000000_00000000_00000011#32 = .ok (.wrbits 3) := rfl
theorem test_decode_wrbits_255 : decode 0b00010000_00000000_00000000_11111111#32 = .ok (.wrbits 255) := rfl
theorem test_decode_wrbyte : decode 0b00010001_00000000_00000000_00000000#32 = .ok .wrbyte := rfl
theorem test_decode_wrbuf : decode 0b00010010_00000000_00000000_00000000#32 = .ok .wrbuf := rfl
theorem test_decode_wflush : decode 0b00010011_00000000_00000000_00000000#32 = .ok .wflush := rfl
theorem test_decode_wclose : decode 0b00010100_00000000_00000000_00000000#32 = .ok .wclose := rfl
theorem test_decode_rdbits : decode 0b00100000_00000000_00000000_00100000#32 = .ok (.rdbits 32) := rfl
theorem test_decode_rdbyte : decode 0b00100001_00000000_00000000_00000000#32 = .ok .rdbyte := rfl
theorem test_decode_rdbuf : decode 0b00100010_00000000_00000000_00000000#32 = .ok .rdbuf := rfl
theorem test_decode_mark : decode 0b00100011_00000000_00000000_00000000#32 = .ok .mark := rfl
theorem test_decode_reset : decode 0b00100100_00000000_00000000_00000000#32 = .ok .reset := rfl
theorem test_decode_skip : decode 0b00100101_00000000_00000000_00000000#32 = .ok .skip := rfl

/-- The illegal words of 95_test_vectors.md 2.1, each with its reason. -/
theorem test_illegal_words :
    decodeFor .bw 0x11000001 = .error .countWhereUnused ∧ decodeFor .bw 0x10010003 = .error .reservedBits ∧
    decodeFor .bw 0x15000000 = .error .noSuchOpcode ∧ decodeFor .bw 0x00000000 = .error .noSuchOpcode ∧
    decodeFor .bw 0x20000008 = .error .otherUnit ∧ decodeFor .br 0x26000000 = .error .noSuchOpcode ∧
    decodeFor .br 0x24000001 = .error .countWhereUnused ∧ decodeFor .br 0x14000000 = .error .otherUnit :=
  ⟨rfl, rfl, rfl, rfl, rfl, rfl, rfl, rfl⟩

theorem test_illegal_word_response :
    (Tests.bwCmd 0x10010003 (Tests.bwAt ⟨3, 0xA0⟩ 1 0 [])).map Tests.bwView = some (4, 0, 3, 0xA0, []) := by decide

theorem test_table_word : decodeTableWord 32 0x10000020 = some (.wrbits 32) ∧ decodeTableWord 32 0x15000000 = none := by
  decide

theorem test_withFetchWord :
    ((Tests.after (step ((Tests.br0 0 0 [0xA5]).withFetchWord 32 0x20000008))).map Tests.brView) =
      some (0, 0xA5, 0, 0x00, [.read (.byte 0xA5)]) := by decide

/-! ## BW: one step each -/

/-- V-W7 -/
theorem test_wrbits_across_bytes :
    (Tests.bwCmd 0x10000020 (Tests.bwAt ⟨1, 0x80⟩ 0xDEADBEEF 0 [])).map Tests.bwView =
      some (0, 0, 1, 0x80, writeEvents [0xEF, 0x56, 0xDF, 0x77]) := by decide

/-- V-W40 -/
theorem test_wrbits_refused_byte :
    (Tests.bwCmd 0x1000000C (Tests.bwAt ⟨0, 0x00⟩ 0xABC 0 [1])).map Tests.bwView =
      some (3, 0, 8, 0xAB, [{ req := .write 0xAB, ack := .ioerr }]) := by decide

/-- S7: 4 needs 3 bits. -/
theorem test_wrbits_value_too_wide :
    (Tests.bwCmd 0x10000002 (Tests.bwAt ⟨3, 0xA0⟩ 4 0 [])).map Tests.bwView = some (1, 0, 3, 0xA0, []) := by decide

/-- V-Y2 -/
theorem test_wrbyte_takes_the_low_byte :
    (Tests.bwCmd 0x11000000 (Tests.bwAt ⟨3, 0xA0⟩ 0x1A5 0 [])).map Tests.bwView =
      some (0, 0, 3, 0xA0, writeEvents [0xB4]) := by decide

/-- V-Y5 -/
theorem test_wrbuf_shifted :
    (Tests.bwCmd 0x12000000 (Tests.bwAt ⟨4, 0xF0⟩ 0x100 2 [])).map Tests.bwView =
      some (0, 0, 4, 0x40, writeEvents [0xF1, 0x23]) := by decide

/-- V-Y7 -/
theorem test_wrbuf_range :
    (Tests.bwCmd 0x12000000 (Tests.bwAt ⟨4, 0x40⟩ 0xFFFFFFFF 2 [])).map Tests.bwView = some (1, 0, 4, 0x40, []) := by
  decide

/-- V-W44 -/
theorem test_wflush_keeps_a_full_accumulator :
    (Tests.bwCmd 0x13000000 (Tests.bwAt ⟨8, 0xAB⟩ 0 0 [])).map Tests.bwView = some (0, 0, 8, 0xAB, []) := by decide

/-- V-Y12 -/
theorem test_wclose_pads :
    (Tests.bwCmd 0x14000000 (Tests.bwAt ⟨5, 0xB8⟩ 0 0 [])).map Tests.bwView =
      some (0, 0, 5, 0xB8, [⟨.write 0xB8, .ok⟩, ⟨.flush, .ok⟩, ⟨.close, .ok⟩]) := by decide

/-- V-Y13 -/
theorem test_wclose_goes_on_after_a_failure :
    (Tests.bwCmd 0x14000000 (Tests.bwAt ⟨1, 0x80⟩ 0 0 [1])).map Tests.bwView =
      some (3, 0, 1, 0x80, [⟨.write 0x80, .ioerr⟩, ⟨.flush, .ok⟩, ⟨.close, .ok⟩]) := by decide

/-! ## BR: one step each -/

/-- V-R6 -/
theorem test_rdbits_across_bytes :
    (Tests.brCmd 0x20000020 (Tests.brAt ⟨7, 0xDE⟩ Accum.empty 0 0 (Tests.src [0xF7, 0x77, 0xEF, 0xAA]))).map Tests.brView =
      some (0, 0xDFEEEFDF, 7, 0x54, readEvents [0xF7, 0x77, 0xEF, 0xAA]) := by decide

/-- V-R13 -/
theorem test_rdbits_loses_what_it_held :
    (Tests.brCmd 0x20000004 (Tests.brAt ⟨3, 0xE0⟩ Accum.empty 0 0 (Tests.src []))).map Tests.brView =
      some (2, 0, 0, 0x00, [.read .eod]) := by decide

/-- V-B1 -/
theorem test_rdbyte_zero :
    (Tests.brCmd 0x21000000 (Tests.br0 0 0 [0x00])).map Tests.brView = some (0, 0, 0, 0x00, readEvents [0x00]) := by decide

/-- V-B3 -/
theorem test_rdbyte_sentinel :
    (Tests.brCmd 0x21000000 (Tests.brAt ⟨5, 0xF8⟩ Accum.empty 0 0 (Tests.src []))).map Tests.brView =
      some (0, 0xFFFFFFFF, 0, 0x00, [.read .eod]) := by decide

/-- V-F5: the response and the accumulator. -/
theorem test_rdbuf_short_read :
    (Tests.brCmd 0x22000000 (Tests.brAt ⟨4, 0xB0⟩ Accum.empty 0 4 (Tests.src [0xCD, 0xEF]))).map Tests.brView =
      some (0, 2, 0, 0x00, readEvents [0xCD, 0xEF] ++ [.read .eod]) := by decide

/-- V-F5: the bytes stored. -/
theorem test_rdbuf_stores :
    (Tests.brCmd 0x22000000 (Tests.brAt ⟨4, 0xB0⟩ Accum.empty 0 4 (Tests.src [0xCD, 0xEF]))).map (fun t => t.buffer) =
      some (.shared [(0, 0xBC), (1, 0xDE)]) := by decide

/-- V-M5 -/
theorem test_mark_takes_the_snapshot :
    (Tests.brCmd 0x23000000 (Tests.brAt ⟨2, 0x40⟩ ⟨5, 0xC0⟩ 0xFFFFFFFF 0 (Tests.src []))).map
      (fun t => (t.br.acc, t.br.snap, t.br.regs.status, t.source.trace)) =
      some (⟨2, 0x40⟩, ⟨2, 0x40⟩, 0, [.mark 0xFFFFFFFF .ok]) := by decide

/-- V-M1, step 4 -/
theorem test_reset_restores :
    (Tests.brCmd 0x24000000 (Tests.brAt ⟨4, 0xC0⟩ ⟨5, 0xC0⟩ 0 0 (.reference ⟨[0xB8, 0x5C], 2, some 1⟩))).map
      (fun t => (t.br.acc, t.br.snap, t.br.regs.status, t.source.device)) =
      some (⟨5, 0xC0⟩, ⟨5, 0xC0⟩, 0, .reference ⟨[0xB8, 0x5C], 1, some 1⟩) := by decide

/-- V-M2 -/
theorem test_reset_without_mark :
    (Tests.brCmd 0x24000000 (Tests.brAt ⟨4, 0x10⟩ Accum.empty 0 0 (Tests.src [0xB8]))).map Tests.brView =
      some (3, 0, 4, 0x10, [.reset .ioerr]) := by decide

/-- V-K7 -/
theorem test_skip_from_inside_a_byte :
    (Tests.brCmd 0x25000000 (Tests.brAt ⟨3, 0xA0⟩ Accum.empty 2 0 (Tests.src [0x2C, 0x8D]))).map Tests.brView =
      some (0, 2, 3, 0xA0, readEvents [0x2C, 0x8D]) := by decide

/-- V-K4 -/
theorem test_skip_to_the_end :
    (Tests.brCmd 0x25000000 (Tests.brAt ⟨4, 0x00⟩ Accum.empty 3 0 (Tests.src [0x12]))).map Tests.brView =
      some (0, 1, 0, 0x00, readEvents [0x12] ++ [.read .eod]) := by decide

/-! ## Witnesses of the statements -/

theorem witness_ResetInputRestoresOneUnit :
    (∀ u : UnitId, u = .bw ∨ u = .br → (Tests.next (.reset u) (Tests.bwAt ⟨8, 0xAB⟩ 7 7 [])).host = .reset u :: []) ∧
    (Tests.after (step (Tests.next (.reset .bw) (Tests.bwAt ⟨8, 0xAB⟩ 7 7 [])))).map (fun t => t.bw) = some BwUnit.reset ∧
    (Tests.after (step (Tests.next (.reset .br) (Tests.brAt ⟨2, 0x40⟩ ⟨5, 0xC0⟩ 7 7 (Tests.src []))))).map (fun t => t.br) =
      some BrUnit.reset := by
  refine ⟨?_, by decide, by decide⟩
  rintro u -
  rfl

/-- Every clause, at its own offset: the operand registers, the two ignored writes, the reads. -/
theorem witness_HostRegisterAccesses :
    (Tests.after (step (Tests.next (.write .bw 0x00 5) State.reset))).map (fun t => t.bw.regs.arg0) = some 5 ∧
    (Tests.after (step (Tests.next (.write .br 0x04 5) State.reset))).map (fun t => t.br.regs.arg1) = some 5 ∧
    (Tests.after (step (Tests.next (.write .bw 0x0C 5) State.reset))).map (fun t => t.bw.regs) = some HostRegs.reset ∧
    (Tests.after (step (Tests.next (.write .br 0x10 5) State.reset))).map (fun t => t.br.regs) = some HostRegs.reset ∧
    (∀ o, o = (0x00 : Word) ∨ o = 0x04 ∨ o = 0x08 →
      (Tests.after (step (Tests.next (.read .bw o) (Tests.bwAt Accum.empty 7 7 [])))).map (fun t => t.readData) = some 0) ∧
    (Tests.after (step (Tests.next (.read .bw 0x0C) (State.reset.respond .bw 3 0)))).map (fun t => t.readData) = some 3 ∧
    (Tests.after (step (Tests.next (.read .br 0x10) (State.reset.respond .br 0 9)))).map (fun t => t.readData) = some 9 :=
  ⟨by decide, by decide, by decide, by decide, by rintro o (rfl | rfl | rfl) <;> rfl, by decide, by decide⟩

theorem witness_StepRunsTheDecodedCommand :
    (Tests.next (.write .bw 0x08 0x13000000) State.reset).host = .write .bw 0x08 0x13000000 :: [] ∧
    (Tests.next (.write .bw 0x08 0x13000000) State.reset).blocked .bw = false ∧
    decodeFor .bw 0x13000000 = .ok .wflush ∧ decodeFor .br 0x13000000 = .error .otherUnit := ⟨rfl, rfl, rfl, rfl⟩

theorem witness_IdleMachineKeepsItsState : State.reset.host = [] := rfl

/-- The reset state with the word numbers of the two bases. -/
def Tests.mapped (bwBlock brBlock : Nat) : State := { State.reset with map := ⟨bwBlock, brBlock⟩ }

/-- The offsets just past the block, and inside it but off a word; the addresses just past one block, just below the other,
and of two registers at once where the blocks overlap. -/
theorem witness_NoCommandStopsTheMachine :
    step (Tests.next (.read .bw 0x14) State.reset) = .fault (.noRegister .bw 0x14) ∧
    step (Tests.next (.write .br 0x02 1) State.reset) = .fault (.noRegister .br 0x02) ∧
    step (Tests.next (.readAt 0x1014) (Tests.mapped 0x400 0x800)) = .fault (.noRegisterAt 0x1014) ∧
    step (Tests.next (.writeAt 0x1FFF 1) (Tests.mapped 0x400 0x800)) = .fault (.noRegisterAt 0x1FFF) ∧
    step (Tests.next (.readAt 0x1010) (Tests.mapped 0x400 0x404)) = .fault (.noRegisterAt 0x1010) := ⟨rfl, rfl, rfl, rfl, rfl⟩

/-- The first and the last register of each block, in blocks that touch; and a command issued by its address. -/
theorem witness_HostAddressesReachTheRegisters :
    (∀ (x : UnitId) (other : HostReg), (Tests.mapped 0x400 0x405).map.base .bw + HostReg.result.offset.toNat =
      (Tests.mapped 0x400 0x405).map.base x + other.offset.toNat → x = .bw) ∧
    (∀ (x : UnitId) (other : HostReg), (Tests.mapped 0x400 0x405).map.base .br + HostReg.arg0.offset.toNat =
      (Tests.mapped 0x400 0x405).map.base x + other.offset.toNat → x = .br) ∧
    (Tests.mapped 0x400 0x405).map.base .br + HostReg.arg0.offset.toNat = 0x1014 ∧
    (Tests.after (step (Tests.next (.writeAt 0x1014 7) (Tests.mapped 0x400 0x405)))).map (fun t => t.br.regs.arg0) = some 7 ∧
    (Tests.after (step (Tests.next (.readAt 0x1010) ((Tests.mapped 0x400 0x405).respond .bw 0 9)))).map (fun t => t.readData) =
      some 9 ∧
    (Tests.after (step (Tests.next (.writeAt 0x1008 0x15000000) (Tests.mapped 0x400 0x405)))).map (fun t => t.bw.regs.status) =
      some 4 := by
  refine ⟨?_, ?_, rfl, rfl, rfl, rfl⟩ <;> intro x other <;> cases x <;> cases other <;> decide

/-- BR whose source never answers. -/
def Tests.stuck : State := Tests.brAt Accum.empty Accum.empty 16 0 (.oracle [none] [none] [none])

/-- A read that is never answered leaves its unit blocked, and a later write of CMD has no effect; a mark and a reset that
are never answered; a flush that is never answered, after a write that is; and a command that completes. -/
theorem witness_UnansweredTransactionBlocksTheUnit :
    (Tests.after (exec .rdbyte Tests.stuck)).map (fun t => (t.blocked .br, t.br.regs == Tests.stuck.br.regs, t.source.asked,
      t.source.trace)) = some (true, true, 1, []) ∧
    ((Tests.after (exec .rdbyte Tests.stuck)).bind (Tests.brCmd 0x23000000)).map (fun t => t.br) =
      (Tests.after (exec .rdbyte Tests.stuck)).map (fun t => t.br) ∧
    (sourceMark 16 Tests.stuck.source).1 = none ∧ (sourceReset Tests.stuck.source).1 = none ∧
    (Tests.after (exec .mark Tests.stuck)).map (fun t => t.br.awaiting) = some (some (.mark 16)) ∧
    (Tests.after (exec .reset Tests.stuck)).map (fun t => t.br.awaiting) = some (some .reset) ∧
    (Tests.after (exec .wclose { Tests.bwAt ⟨5, 0xB8⟩ 0 0 [] with
      sink := { device := .oracle [some .ok, none], asked := 0, trace := [] } })).map
      (fun t => (t.blocked .bw, t.sink.asked, t.sink.trace.length)) = some (true, 2, 1) ∧
    (Tests.after (exec .rdbyte (Tests.br0 0 0 [0x33]))).map (fun t => (t.blocked .br, t.source.asked, t.source.trace.length)) =
      some (false, 1, 1) := by
  refine ⟨by decide, by decide, rfl, rfl, by decide, by decide, by decide, by decide⟩

theorem witness_DecodeFollowsTheOpcodeMap :
    decode 0x10000000 = .ok (.wrbits 0) ∧ decode 0x200000FF = .ok (.rdbits 255) := ⟨rfl, rfl⟩

/-- Each of the five ways of being illegal, at a boundary; and counts that are legal encodings. -/
theorem witness_IllegalWordsAreRejected :
    decodeFor .bw 0x10000000 = .ok (.wrbits 0) ∧ decodeFor .br 0x200000FF = .ok (.rdbits 255) ∧
    decodeFor .bw 0x15000000 = .error .noSuchOpcode ∧
    (opcField 0x15000000).toNat ∉ [0x10, 0x11, 0x12, 0x13, 0x14, 0x20, 0x21, 0x22, 0x23, 0x24, 0x25] ∧
    rsvField 0x10800001 ≠ 0 ∧
    (nField 0x14000001 ≠ 0 ∧ (opcField 0x14000001).toNat ≠ 0x10 ∧ (opcField 0x14000001).toNat ≠ 0x20) ∧
    (opcField 0x25000000).toNat / 16 = 2 ∧ (opcField 0x10000001).toNat / 16 = 1 :=
  ⟨rfl, rfl, rfl, by decide, by decide, by decide, by decide, by decide⟩

theorem witness_DecodeOfEncodeIsTheCommand : (Instr.rdbits 255).wellFormed = true := rfl

theorem witness_EncodeOfDecodeIsTheWord : decode 0x25000000 = .ok .skip := rfl

theorem witness_EveryStepKeepsTheStateLegal :
    (Tests.next (.write .bw 0x08 0x10000008) (Tests.bwAt ⟨8, 0xAB⟩ 0xFF 0 [1])).Inv ∧
    (Tests.bwCmd 0x10000008 (Tests.bwAt ⟨8, 0xAB⟩ 0xFF 0 [1])).isSome := by decide

/-- Each condition of R122 at its boundary, and the nearest operands that do not meet it. -/
theorem witness_InvalidArgumentCauses :
    badArgument (.wrbits 0) (Tests.bwAt ⟨3, 0xA0⟩ 0 0 []) ∧ badArgument (.wrbits 33) (Tests.bwAt ⟨3, 0xA0⟩ 0 0 []) ∧
    badArgument (.wrbits 2) (Tests.bwAt ⟨3, 0xA0⟩ 4 0 []) ∧ ¬ badArgument (.wrbits 2) (Tests.bwAt ⟨3, 0xA0⟩ 3 0 []) ∧
    badArgument (.rdbits 0) (Tests.br0 0 0 []) ∧ badArgument (.rdbits 33) (Tests.br0 0 0 []) ∧
    ¬ badArgument (.rdbits 32) (Tests.br0 0 0 []) ∧
    badArgument .wrbuf (Tests.bwAt ⟨3, 0xA0⟩ 0xFFFFFFFF 2 []) ∧ ¬ badArgument .wrbuf (Tests.bwAt ⟨3, 0xA0⟩ 0xFFFFFFFF 1 []) ∧
    badArgument .rdbuf (Tests.br0 0xFFFFFFFF 2 []) ∧ ¬ badArgument .rdbuf (Tests.br0 0xFFFFFFFF 1 []) ∧
    ¬ badArgument .skip (Tests.br0 0xFFFFFFFF 0 []) ∧ (Tests.br0 0 0 []).blocked .br = false ∧
    (Tests.bwAt ⟨3, 0xA0⟩ 0 0 []).blocked .bw = false := by
  simp [badArgument, Tests.bwAt, Tests.br0, Tests.brAt, State.blocked, BwUnit.reset, BrUnit.reset]

/-- An EOD in RDBITS, in RDBYTE, in RDBUF on its first byte and on a later one, and in SKIP. -/
theorem witness_EndOfStreamCauses :
    (Tests.after (exec (.rdbits 4) (Tests.brAt ⟨3, 0xE0⟩ Accum.empty 0 0 (Tests.src [])))).map Tests.brView =
      some (2, 0, 0, 0x00, [.read .eod]) ∧
    (Tests.after (exec .rdbyte (Tests.br0 0 0 []))).map Tests.brView = some (0, 0xFFFFFFFF, 0, 0x00, [.read .eod]) ∧
    (Tests.after (exec .rdbuf (Tests.br0 20 4 []))).map Tests.brView = some (0, 0xFFFFFFFF, 0, 0x00, [.read .eod]) ∧
    (Tests.after (exec .rdbuf (Tests.br0 10 4 [0x33]))).map Tests.brView =
      some (0, 1, 0, 0x00, [.read (.byte 0x33), .read .eod]) ∧
    (Tests.after (exec .skip (Tests.br0 1 0 []))).map Tests.brView = some (0, 0, 0, 0x00, [.read .eod]) :=
  ⟨by decide, by decide, by decide, by decide, by decide⟩

theorem witness_IoErrorCauses :
    (Tests.after (exec .wclose (Tests.bwAt ⟨1, 0x80⟩ 0 0 [1]))).map (fun t => (t.blocked .bw, t.bw.regs.status)) =
      some (false, 3) ∧
    (Tests.after (exec .skip (Tests.brAt Accum.empty Accum.empty 3 0 (.oracle [some .ioerr] [] [])))).map
      (fun t => (t.blocked .br, t.br.regs.status)) = some (false, 3) ∧
    (Tests.after (exec .mark (Tests.br0 3 0 []))).map (fun t => (t.blocked .br, t.br.regs.status)) = some (false, 0) := by
  decide

theorem witness_WriterCommandsFrame :
    (Tests.after (exec .wrbuf (Tests.bwAt ⟨4, 0xF0⟩ 0x100 2 []))).map (fun t => t.sink.trace.length) = some 2 ∧
    (Tests.after (exec .wclose (Tests.bwAt ⟨4, 0xF0⟩ 0 0 []))).map (fun t => t.bw.acc) = some ⟨4, 0xF0⟩ := by decide

/-- The byte before the transfer and the byte after it are outside; a command that stores nothing too. -/
theorem witness_ReaderCommandsFrame :
    (Tests.br0 0x10 1 [0xA5]).buffer.wf ∧
    (Tests.after (exec .rdbuf (Tests.br0 0x10 1 [0xA5]))).map (fun t => t.buffer) = some (.shared [(0x10, 0xA5)]) ∧
    (0x0F < (Tests.br0 0x10 1 [0xA5]).br.regs.arg0.toNat ∧
      (Tests.br0 0x10 1 [0xA5]).br.regs.arg0.toNat + (Tests.br0 0x10 1 [0xA5]).br.regs.arg1.toNat ≤ 0x11) ∧
    (Tests.after (exec .mark (Tests.br0 0x10 1 []))).isSome ∧ (Tests.after (exec (.rdbits 8) (Tests.br0 0 0 [0xA5]))).isSome := by
  decide

/-- BW and BR both attached: BW with bits pending, BR with bytes to come. -/
def Tests.both : State :=
  { Tests.bwAt ⟨4, 0xF0⟩ 0x100 2 [] with
    br := { BrUnit.reset with regs := { HostRegs.reset with arg0 := 0x100, arg1 := 1 } }
    source := { device := Tests.src [0xA5], asked := 0, trace := [] } }

theorem witness_UnitsDoNotCommunicate :
    (Tests.after (exec .wrbuf Tests.both)).isSome ∧ (Tests.after (exec (.rdbits 8) Tests.both)).isSome ∧
    (Tests.after (exec .wrbyte Tests.both)).isSome ∧ (Tests.after (exec .rdbuf Tests.both)).isSome := by decide

theorem witness_FivePassesCarryEveryRun :
    (Tests.bwAt ⟨8, 0xAB⟩ 0 0 []).writer.acc.legal ∧ (Tests.brAt ⟨7, 0xDE⟩ Accum.empty 0 0 (Tests.src [])).reader.acc.atRest := by
  decide

/-- The shortest and the longest run, from an empty, a nearly full and a full accumulator. -/
theorem witness_WrbitsAppendsTheRun :
    (⟨8, 0xAB⟩ : Accum).legal ∧ (⟨7, 0xFE⟩ : Accum).legal ∧ Accum.empty.legal ∧
    (Tests.bwAt ⟨8, 0xAB⟩ 1 0 []).bw.regs.arg0.toNat ≤ 2 ^ 1 - 1 ∧
    (Tests.bwAt ⟨7, 0xFE⟩ 0xFFFFFFFF 0 []).bw.regs.arg0.toNat ≤ 2 ^ 32 - 1 ∧
    (∀ a x m, (Tests.bwAt a x 0 []).sink.willing m) := by
  refine ⟨by decide, by decide, by decide, by decide, by decide, fun a x m => ⟨rfl, ?_⟩⟩
  intro f hf; cases hf

theorem witness_WrbitsRefusedByteIsKept :
    (Tests.bwAt Accum.empty 0xDEADBEEF 0 [3]).bw.acc.legal ∧ ¬ badArgument (.wrbits 32) (Tests.bwAt Accum.empty 0xDEADBEEF 0 [3]) ∧
    ∃ t, exec (.wrbits 32) (Tests.bwAt Accum.empty 0xDEADBEEF 0 [3]) = .next t ∧
      ∃ e ∈ t.sink.trace.drop (Tests.bwAt Accum.empty 0xDEADBEEF 0 [3]).sink.trace.length, e.ack = .ioerr := by
  refine ⟨by decide, by simp [badArgument, Tests.bwAt], _, rfl, ?_⟩
  decide

/-- The pending byte accepted, and refused. -/
theorem witness_FullAccumulatorIsPresentedAgain :
    (Tests.bwAt ⟨8, 0xAB⟩ 1 0 []).blocked .bw = false ∧ (Tests.bwAt ⟨8, 0xAB⟩ 1 0 []).bw.acc = { occ := 8, buf := 0xAB } ∧
    ¬ badArgument (.wrbits 1) (Tests.bwAt ⟨8, 0xAB⟩ 1 0 []) ∧ badArgument (.wrbits 1) (Tests.bwAt ⟨8, 0xAB⟩ 2 0 []) ∧
    (sinkTransact (.write 0xAB) (Tests.bwAt ⟨8, 0xAB⟩ 1 0 []).sink).1 = some .ok ∧
    (sinkTransact (.write 0xAB) (Tests.bwAt ⟨8, 0xAB⟩ 1 0 [1]).sink).1 = some .ioerr := by
  refine ⟨rfl, rfl, by simp [badArgument, Tests.bwAt], by simp [badArgument, Tests.bwAt], rfl, rfl⟩

/-- The last bit of a byte, refused; and never answered. -/
theorem witness_FullAccumulatorOnlyAfterAFailedEmission :
    (Tests.bwAt ⟨7, 0xFE⟩ 1 0 [1]).bw.acc.atRest ∧
    (Tests.after (exec (.wrbits 1) (Tests.bwAt ⟨7, 0xFE⟩ 1 0 [1]))).map Tests.bwView =
      some (3, 0, 8, 0xFF, [⟨.write 0xFF, .ioerr⟩]) ∧
    (Tests.after (exec (.wrbits 1) { Tests.bwAt ⟨7, 0xFE⟩ 1 0 [] with
      sink := { device := .oracle [none], asked := 0, trace := [] } })).map (fun t => t.bw.awaiting) =
      some (some (.write 0xFF)) := by decide

theorem witness_WrbyteAppendsOneByte :
    (Tests.bwAt ⟨7, 0xFE⟩ 0x1A5 0 []).bw.acc.atRest ∧ (Tests.bwAt ⟨7, 0xFE⟩ 0x1A5 0 []).sink.willing 1 :=
  ⟨by decide, rfl, fun _ hf => by cases hf⟩

/-- BW with a full accumulator and a transfer of length 0, on a sink that never answers. -/
def Tests.emptyTransfer : State :=
  { Tests.bwAt ⟨8, 0xAB⟩ 0x100 0 [] with sink := { device := .oracle [none], asked := 0, trace := [] } }

/-- A transfer to the last byte of the space, and one of length 0 on a sink that answers nothing. -/
theorem witness_WrbufAppendsItsElements :
    (Tests.bwAt ⟨8, 0xAB⟩ 0xFFFFFFFF 1 []).bw.acc.legal ∧
    (Tests.bwAt ⟨8, 0xAB⟩ 0xFFFFFFFF 1 []).bw.regs.arg0.toNat + (Tests.bwAt ⟨8, 0xAB⟩ 0xFFFFFFFF 1 []).bw.regs.arg1.toNat ≤ 2 ^ 32 ∧
    (Tests.bwAt ⟨8, 0xAB⟩ 0xFFFFFFFF 1 []).sink.willing 2 ∧
    Tests.emptyTransfer.bw.regs.arg1 = 0 ∧ Tests.emptyTransfer.blocked .bw = false ∧
    (Tests.after (exec .wrbuf Tests.emptyTransfer)).map Tests.bwView = some (0, 0, 8, 0xAB, []) :=
  ⟨by decide, by decide, ⟨rfl, fun _ hf => by cases hf⟩, rfl, rfl, by decide⟩

/-- A run that ends early, and one that ends OK. -/
theorem witness_WritingCommandsAppendAPrefix :
    (Tests.bwAt Accum.empty 0 0 [2]).bw.acc.legal ∧
    ¬ badArgument .wrbuf (Call.load ⟨.wrbuf, 0x100, 2⟩ (Tests.bwAt Accum.empty 0 0 [2])) ∧
    (Tests.after (exec .wrbuf (Call.load ⟨.wrbuf, 0x100, 2⟩ (Tests.bwAt Accum.empty 0 0 [2])))).map (fun t => t.bw.regs.status) =
      some 3 ∧
    (Tests.after (exec .wrbuf (Call.load ⟨.wrbuf, 0x100, 2⟩ (Tests.bwAt Accum.empty 0 0 [])))).map
      (fun t => decide (t.answered .bw .ok 0)) = some true := by
  refine ⟨by decide, ?_, by decide, by decide⟩
  show ¬ ((0x100 : Word).toNat + (2 : Word).toNat > 2 ^ 32)
  decide

theorem witness_WflushDoesNothing : (Tests.bwAt ⟨8, 0xAB⟩ 0 0 []).blocked .bw = false := rfl

/-- With a byte pending, without, and with a transaction that is never answered. -/
theorem witness_WcloseAttemptsEveryStep :
    (Tests.bwAt ⟨8, 0xAB⟩ 0 0 []).bw.acc.occ > 0 ∧ ¬ (Tests.bwAt Accum.empty 0 0 []).bw.acc.occ > 0 ∧
    (Tests.after (exec .wclose { Tests.bwAt ⟨5, 0xB8⟩ 0 0 [] with
      sink := { device := .oracle [some .ok, none], asked := 0, trace := [] } })).map (fun t => t.bw.awaiting) =
      some (some .flush) := by decide

theorem witness_WcloseDeliversEveryBitPadded :
    (Tests.bwAt ⟨8, 0xAB⟩ 0 0 []).bw.acc.legal ∧ (Tests.bwAt ⟨5, 0xB8⟩ 0 0 []).bw.acc.legal ∧
    (Tests.bwAt Accum.empty 0 0 []).bw.acc.legal ∧ ∀ a, (Tests.bwAt a 0 0 []).sink.willing 3 :=
  ⟨by decide, by decide, by decide, fun _ => ⟨rfl, fun _ hf => by cases hf⟩⟩

/-- BW just after reset, on the reference sink. -/
def Tests.bwFresh : State :=
  { State.reset with sink := { device := .reference ⟨[], true, 0, []⟩, asked := 0, trace := [] } }

theorem witness_WriterStreamLaw :
    Tests.bwFresh.bw = BwUnit.reset ∧ Tests.bwFresh.sink.accepted = [] ∧
    ∃ t, RunsOk [⟨.wrbits 3, 5, 0⟩, ⟨.wrbyte, 0xA5, 0⟩] Tests.bwFresh t ∧
      ∃ t', exec .wclose t = .next t' ∧ t'.answered .bw .ok 0 :=
  ⟨rfl, rfl, _, ⟨0, _, rfl, ⟨rfl, rfl, rfl⟩, 0, _, rfl, ⟨rfl, rfl, rfl⟩, rfl⟩, _, rfl, rfl, rfl, rfl⟩

theorem Tests.src_supplies (p : SourcePort) (bs : List Byte) (h : p.device = .reference ⟨bs, 0, none⟩) :
    p.supplies bs ∧ p.suppliesThenEnds bs := by
  simp [SourcePort.supplies, SourcePort.suppliesThenEnds, h]

/-- The shortest run, from held bits; the longest, with five bytes to come. -/
theorem witness_RdbitsDeliversTheNextBits :
    (Tests.brAt ⟨1, 0x80⟩ Accum.empty 0 0 (Tests.src [])).br.acc.atRest ∧
    (Tests.brAt ⟨1, 0x80⟩ Accum.empty 0 0 (Tests.src [])).source.supplies [] ∧ 1 ≤ 1 + 8 * ([] : List Byte).length ∧
    (Tests.br0 0 0 [1, 2, 3, 4]).source.supplies [1, 2, 3, 4] ∧ 32 ≤ 0 + 8 * ([1, 2, 3, 4] : List Byte).length :=
  ⟨by decide, (Tests.src_supplies _ _ rfl).1, by decide, (Tests.src_supplies _ _ rfl).1, by decide⟩

/-- One bit short, at the end of the source and at a failure of it. -/
theorem witness_RdbitsShortOfBitsConsumes :
    (Tests.brAt ⟨7, 0xDE⟩ Accum.empty 0 0 (Tests.src [1])).br.acc.atRest ∧ 7 + 8 * ([1] : List Byte).length < 16 ∧
    (Tests.brAt ⟨7, 0xDE⟩ Accum.empty 0 0 (Tests.src [1])).source.suppliesThenEnds [1] ∧
    (Tests.brAt ⟨7, 0xDE⟩ Accum.empty 0 0 (.oracle [some (.byte 1), some .ioerr] [] [])).source.suppliesThenFails [1] :=
  ⟨by decide, by decide, (Tests.src_supplies _ _ rfl).2, [], rfl⟩

theorem witness_RdbyteReturnsTheNextEightBits :
    (Tests.brAt ⟨7, 0xDE⟩ Accum.empty 0 0 (Tests.src [0xA5])).br.acc.atRest ∧
    (Tests.brAt ⟨7, 0xDE⟩ Accum.empty 0 0 (Tests.src [0xA5])).source.supplies [0xA5] :=
  ⟨by decide, (Tests.src_supplies _ _ rfl).1⟩

/-- A byte, and the sentinel. -/
theorem witness_SentinelIsNoByte :
    (Tests.after (exec .rdbyte (Tests.br0 0 0 [0xFF]))).map (fun t => decide (t.answered .br .ok 0xFF)) = some true ∧
    (Tests.after (exec .rdbyte (Tests.br0 0 0 []))).map (fun t => decide (t.answered .br .ok 0xFFFFFFFF)) = some true ∧
    (Tests.br0 0 0 []).br.acc.atRest := by decide

/-- A transfer that ends at the last byte of the space, its source holding just enough. -/
theorem witness_RdbufFillsTheBuffer :
    (Tests.br0 0xFFFFFFFE 2 [7, 8]).br.acc.atRest ∧ (Tests.br0 0xFFFFFFFE 2 [7, 8]).buffer.wf ∧
    (Tests.br0 0xFFFFFFFE 2 [7, 8]).br.regs.arg0.toNat + (Tests.br0 0xFFFFFFFE 2 [7, 8]).br.regs.arg1.toNat ≤ 2 ^ 32 ∧
    ([7, 8] : List Byte).length = (Tests.br0 0xFFFFFFFE 2 [7, 8]).br.regs.arg1.toNat ∧
    (Tests.br0 0xFFFFFFFE 2 [7, 8]).source.supplies [7, 8] :=
  ⟨by decide, by decide, by decide, by decide, (Tests.src_supplies _ _ rfl).1⟩

/-- BR empty, its operands, and a source that yields one byte and then fails. -/
def Tests.failing (arg0 arg1 : Word) : State :=
  Tests.brAt Accum.empty Accum.empty arg0 arg1 (.oracle [some (.byte 7), some .ioerr] [] [])

/-- One byte short, and no byte at all, at the end of the source; one byte short at a failure, the byte stored. -/
theorem witness_RdbufShortRead :
    (Tests.br0 10 2 [7]).br.acc.atRest ∧ (Tests.br0 10 2 [7]).buffer.wf ∧
    (Tests.br0 10 2 [7]).br.regs.arg0.toNat + (Tests.br0 10 2 [7]).br.regs.arg1.toNat ≤ 2 ^ 32 ∧
    ([7] : List Byte).length < (Tests.br0 10 2 [7]).br.regs.arg1.toNat ∧
    (Tests.br0 10 2 [7]).source.suppliesThenEnds [7] ∧ (Tests.br0 10 1 []).source.suppliesThenEnds [] ∧
    (Tests.failing 10 2).br.acc.atRest ∧ (Tests.failing 10 2).buffer.wf ∧
    ([7] : List Byte).length < (Tests.failing 10 2).br.regs.arg1.toNat ∧ (Tests.failing 10 2).source.suppliesThenFails [7] ∧
    (Tests.after (exec .rdbuf (Tests.failing 10 2))).map Tests.brView =
      some (3, 0, 0, 0x00, [.read (.byte 7), .read .ioerr]) ∧
    (Tests.after (exec .rdbuf (Tests.failing 10 2))).map (fun t => t.buffer) = some (.shared [(10, 7)]) :=
  ⟨by decide, by decide, by decide, by decide, (Tests.src_supplies _ _ rfl).2, (Tests.src_supplies _ _ rfl).2,
    by decide, by decide, by decide, ⟨[], rfl⟩, by decide, by decide⟩

theorem witness_MarkSavesTheBitPosition :
    (Tests.br0 16 0 []).blocked .br = false ∧ (sourceMark 16 (Tests.br0 16 0 []).source).1 = some .ok := ⟨rfl, rfl⟩

/-- A source with a mark, and one without. -/
theorem witness_ResetRestoresOrChangesNothing :
    (Tests.br0 0 0 []).blocked .br = false ∧ (sourceReset (Tests.br0 0 0 []).source).1 = some .ioerr ∧
    (sourceReset (Tests.brAt ⟨4, 0xC0⟩ ⟨5, 0xC0⟩ 0 0 (.reference ⟨[0xB8], 1, some 0⟩)).source).1 = some .ok := ⟨rfl, rfl, rfl⟩

/-- V-M1 from its step 2 to its step 4. -/
theorem witness_MarkThenResetReturnsToTheBit :
    ∃ s t k, s.blocked .br = false ∧ s.source.device = .reference k ∧ s.br.acc = ⟨5, 0xC0⟩ ∧
      Runs (⟨.mark, 16, 0⟩ :: ([⟨.rdbits 9, 0, 0⟩] ++ [⟨.reset, 0, 0⟩])) s t ∧
      ∃ s', exec (.rdbits 9) s = .next s' ∧ s'.br.regs.result = 0x185 :=
  ⟨Tests.brAt ⟨5, 0xC0⟩ Accum.empty 0 0 (.reference ⟨[0xB8, 0x5C], 1, none⟩), _, _, rfl, rfl, rfl,
    ⟨_, rfl, _, rfl, _, rfl, rfl⟩, _, rfl, by decide⟩

/-- Just enough bytes, and one too few, at the end of the source and at a failure of it. -/
theorem witness_SkipCountsWhatItDiscards :
    (Tests.br0 1 0 [0x12]).br.acc.atRest ∧ ([0x12] : List Byte).length = (Tests.br0 1 0 [0x12]).br.regs.arg0.toNat ∧
    (Tests.br0 1 0 [0x12]).source.supplies [0x12] ∧
    ([0x12] : List Byte).length < (Tests.br0 2 0 [0x12]).br.regs.arg0.toNat ∧
    (Tests.br0 2 0 [0x12]).source.suppliesThenEnds [0x12] ∧
    (Tests.failing 2 0).br.acc.atRest ∧ ([7] : List Byte).length < (Tests.failing 2 0).br.regs.arg0.toNat ∧
    (Tests.failing 2 0).source.suppliesThenFails [7] ∧
    (Tests.after (exec .skip (Tests.failing 2 0))).map Tests.brView = some (3, 0, 0, 0x00, [.read (.byte 7), .read .ioerr]) :=
  ⟨by decide, by decide, (Tests.src_supplies _ _ rfl).1, by decide, (Tests.src_supplies _ _ rfl).2, by decide, by decide,
    ⟨[], rfl⟩, by decide⟩

/-- BR just after reset, its source holding two bytes. -/
def Tests.brFresh : State :=
  { State.reset with source := { device := Tests.src [0xB8, 0x5C], asked := 0, trace := [] } }

theorem witness_ReaderStreamLaw :
    Tests.brFresh.br = BrUnit.reset ∧
    ∃ t, Returns [(⟨.rdbits 3, 0, 0⟩, 5), (⟨.rdbyte, 0, 0⟩, 0xC2)] Tests.brFresh t ∧ t.br.acc.occ = 5 :=
  ⟨rfl, _, ⟨_, rfl, ⟨rfl, rfl, by decide⟩, _, rfl, ⟨rfl, rfl, by decide⟩, rfl⟩, rfl⟩

/-- Runs of 3 and 8 bits written and closed, and a reader whose source holds what the sink accepted. -/
theorem witness_RoundTripLaw :
    ∃ t u, Tests.bwFresh.bw = BwUnit.reset ∧ Tests.bwFresh.sink.accepted = [] ∧
      RunsOk (([(3, 5), (8, 0xA5)] : List (Nat × Word)).map fun p => ⟨.wrbits p.1, p.2, 0⟩) Tests.bwFresh t ∧
      exec .wclose t = .next u ∧ u.answered .bw .ok 0 ∧ u.sink.accepted = [0xB4, 0xA0] :=
  ⟨_, _, rfl, rfl, ⟨0, _, rfl, ⟨rfl, rfl, rfl⟩, 0, _, rfl, ⟨rfl, rfl, rfl⟩, rfl⟩, rfl, ⟨rfl, rfl, rfl⟩, by decide⟩

/-- The reader of that round trip: its source holds what the sink accepted. -/
theorem witness_RoundTripLaw_reader :
    { Tests.brFresh with source := { device := Tests.src [0xB4, 0xA0], asked := 0, trace := [] } }.br = BrUnit.reset ∧
    { Tests.brFresh with source := { device := Tests.src [0xB4, 0xA0], asked := 0, trace := [] } }.source.supplies
      [0xB4, 0xA0] := ⟨rfl, (Tests.src_supplies _ _ rfl).1⟩

/-- A failing ordinal and the one before it; the last byte of a source and the end of it. -/
theorem witness_ReferenceEnvironment :
    (⟨[], true, 0, [2]⟩ : RefSink).isOpen = true ∧ (⟨[], true, 0, [2]⟩ : RefSink).made + 1 ∉ [2] ∧
    (⟨[], true, 1, [2]⟩ : RefSink).made + 1 ∈ [2] ∧
    (⟨[0xA5], 0, none⟩ : RefSource).pos < (⟨[0xA5], 0, none⟩ : RefSource).bytes.length ∧
    (⟨[0xA5], 1, none⟩ : RefSource).bytes.length ≤ (⟨[0xA5], 1, none⟩ : RefSource).pos := by decide
end

/-! SUPPORT. The state family: what reset leaves, what a host access does, and what every step keeps
(10_state.md R11 to R23). -/

namespace Sys2Proof.Machine

/-! ## Legal register blocks (10_state.md R19, R20) -/

theorem HostRegs.reset_legal : HostRegs.reset.legal := by decide

theorem statusWord_le (c : Code) : (statusWord c).toNat ≤ 4 := by cases c <;> decide

theorem statusWord_eq_zero_iff (c : Code) : statusWord c = 0 ↔ c = .ok :=
  ⟨fun h => statusWord_inj (h.trans (rfl : (0 : Word) = statusWord .ok)), fun h => h ▸ rfl⟩

/-- A command's end that leaves a legal register block legal: an error comes with the value 0 (R20). -/
def Ending.legal {ρ : Type} : Ending ρ → Prop
  | .done x => x.code ≠ .ok → x.value = 0
  | .blocked _ => True

theorem Ending.legal_ok {ρ : Type} (v : Word) : (Ending.done (ρ := ρ) (Response.ok v)).legal := fun h => absurd rfl h

theorem Ending.legal_raise {ρ : Type} (k : ErrorKind) : (Ending.done (ρ := ρ) (raise k)).legal := fun _ => rfl

theorem HostRegs.report_legal (r : HostRegs) {x : Response} (hx : x.code ≠ .ok → x.value = 0) : (r.report x).legal :=
  ⟨statusWord_le x.code, fun h => hx fun hc => h ((statusWord_eq_zero_iff x.code).2 hc)⟩

theorem Ending.report_legal {ρ : Type} {e : Ending ρ} {r : HostRegs} (he : e.legal) (hr : r.legal) : (e.report r).legal := by
  cases e with
  | done x => exact r.report_legal he
  | blocked q => exact hr

/-- A host write touches neither STATUS nor RESULT (R18). -/
theorem HostRegs.write_legal {r : HostRegs} (hr : r.legal) (reg : HostReg) (v : Word) : (r.write reg v).legal := by
  cases reg <;> exact hr

/-! ## Every command's end is legal -/

theorem WriteAnswers.legal {ws : List SinkEvent} {e : Ending SinkReq} (h : WriteAnswers ws e) : e.legal := by
  cases h with
  | ok _ => exact Ending.legal_ok 0
  | ioerr _ _ _ => exact Ending.legal_raise .ioError
  | unanswered _ _ => trivial

theorem ReadAnswers.legal {E : Response → Prop} {rs : List SourceEvent} {e : Ending SourceReq} (h : ReadAnswers E rs e)
    (hE : ∀ x, E x → (Ending.done (ρ := SourceReq) x).legal) : e.legal := by
  cases h with
  | ok v _ => exact Ending.legal_ok v
  | eod x _ _ hx _ => exact hE x hx
  | ioerr _ _ _ => exact Ending.legal_raise .ioError
  | unanswered _ => trivial

theorem wrBits_ending_legal (v : Word) (n : Nat) (w : Writer) : (wrBits v n w).1.legal := by
  by_cases hok : (1 ≤ n ∧ n ≤ 32) ∧ v.toNat ≤ 2 ^ n - 1
  · obtain ⟨_, -, h⟩ := wrBits_answers hok.1 hok.2 w
    exact h.legal
  · rw [wrBits_invalid hok]; exact Ending.legal_raise _

theorem wrBuf_ending_legal (b : BufferSpace) (o l : Word) (w : Writer) : (wrBuf b o l w).1.legal := by
  unfold wrBuf
  split
  · obtain ⟨_, -, h⟩ := wrBytes_answers b o.toNat l.toNat w
    exact h.legal
  · exact Ending.legal_raise _

theorem wClose_ending_legal (w : Writer) : (wClose w).1.legal := by
  obtain ⟨-, _, -, ⟨hd, -⟩ | ⟨_, hq, -⟩⟩ := closeSteps_cases (closeRequests w.acc) false w
  · rw [wClose, hd]
    split
    · exact Ending.legal_raise _
    · exact Ending.legal_ok 0
  · rw [wClose, hq]; trivial

theorem rdBits_ending_legal (n : Nat) (r : Reader) : (rdBits n r).1.legal := by
  by_cases hn : 1 ≤ n ∧ n ≤ 32
  · obtain ⟨_, -, h⟩ := rdBits_answers hn r
    exact h.legal (by rintro _ rfl; exact Ending.legal_raise _)
  · rw [rdBits_invalid hn]; exact Ending.legal_raise _

theorem rdByte_ending_legal (r : Reader) : (rdByte r).1.legal := by
  obtain ⟨_, -, h⟩ := rdByte_answers r
  exact h.legal (by rintro _ rfl; exact Ending.legal_ok _)

theorem rdBuf_ending_legal (o l : Word) (r : Reader) (b : BufferSpace) : (rdBuf o l r b).1.legal := by
  unfold rdBuf
  split
  · obtain ⟨_, -, h⟩ := fillLoop_answers o.toNat l.toNat 0 r b
    exact h.legal (by rintro _ ⟨v, rfl, -⟩; exact Ending.legal_ok v)
  · exact Ending.legal_raise _

theorem skipLoop_ending_legal (left cnt : Nat) (r : Reader) : (skipLoop left cnt r).1.legal := by
  obtain ⟨_, -, h⟩ := skipLoop_answers left cnt r
  exact h.legal (by rintro _ ⟨v, rfl, -⟩; exact Ending.legal_ok v)

/-! ## Every command leaves legal accumulators and a canonical buffer space -/

theorem Accum.atRest.legal {a : Accum} (h : a.atRest) : a.legal := ⟨h.1.trans (by decide), h.2⟩

theorem wrBuf_legal (b : BufferSpace) (o l : Word) {w : Writer} (h : w.acc.legal) : (wrBuf b o l w).2.acc.legal := by
  unfold wrBuf
  split
  · exact (wrBytes_cases b o.toNat l.toNat w h).1
  · exact h

theorem wClose_acc (w : Writer) : (wClose w).2.acc = w.acc := (closeSteps_cases (closeRequests w.acc) false w).1

theorem rdBuf_atRest (o l : Word) {r : Reader} (b : BufferSpace) (h : r.acc.atRest) : (rdBuf o l r b).2.1.acc.atRest := by
  unfold rdBuf
  split
  · exact fillLoop_atRest _ _ _ b h
  · exact h

/-- The range check of RDBUF is what keeps its stores inside the 2^32 bytes (R37, R96). -/
theorem rdBuf_wf (o l : Word) (r : Reader) {b : BufferSpace} (hb : b.wf) : (rdBuf o l r b).2.2.wf := by
  unfold rdBuf
  split
  next hrange => exact (fillLoop_frame _ _ 0 r hb ((rangeOk_iff o l).1 hrange)).1
  next => exact hb

/-! ## The invariant, one rule per update of the state -/

theorem inv_finishBw {s : State} (h : s.Inv) {x : Ending SinkReq × Writer} (ha : x.2.acc.legal) (he : x.1.legal) :
    (s.finishBw x).Inv := by
  obtain ⟨-, hbr, hsnap, hbwRegs, hbrRegs, hbuf⟩ := h
  exact ⟨ha, hbr, hsnap, Ending.report_legal he hbwRegs, hbrRegs, hbuf⟩

theorem inv_finishBr {s : State} (h : s.Inv) {x : Ending SourceReq × Reader} (ha : x.2.acc.atRest) (he : x.1.legal) :
    (s.finishBr x).Inv := by
  obtain ⟨hbw, -, hsnap, hbwRegs, hbrRegs, hbuf⟩ := h
  exact ⟨hbw, ha, hsnap, hbwRegs, Ending.report_legal he hbrRegs, hbuf⟩

theorem inv_withBuffer {s : State} (h : s.Inv) {b : BufferSpace} (hb : b.wf) : State.Inv { s with buffer := b } := by
  obtain ⟨hbw, hbr, hsnap, hbwRegs, hbrRegs, -⟩ := h
  exact ⟨hbw, hbr, hsnap, hbwRegs, hbrRegs, hb⟩

theorem inv_withSnap {s : State} (h : s.Inv) {a : Accum} (ha : a.atRest) :
    State.Inv { s with br := { s.br with snap := a } } := by
  obtain ⟨hbw, hbr, -, hbwRegs, hbrRegs, hbuf⟩ := h
  exact ⟨hbw, hbr, ha, hbwRegs, hbrRegs, hbuf⟩

theorem inv_withRegs {s : State} (h : s.Inv) (u : UnitId) {r : HostRegs} (hr : r.legal) : (s.withRegs u r).Inv := by
  obtain ⟨hbw, hbr, hsnap, hbwRegs, hbrRegs, hbuf⟩ := h
  cases u with
  | bw => exact ⟨hbw, hbr, hsnap, hr, hbrRegs, hbuf⟩
  | br => exact ⟨hbw, hbr, hsnap, hbwRegs, hr, hbuf⟩

theorem inv_regs {s : State} (h : s.Inv) (u : UnitId) : (s.regs u).legal := by
  obtain ⟨-, -, -, hbwRegs, hbrRegs, -⟩ := h
  cases u with
  | bw => exact hbwRegs
  | br => exact hbrRegs

theorem inv_hostWrite {s : State} (h : s.Inv) (u : UnitId) (reg : HostReg) (v : Word) : (s.hostWrite u reg v).Inv :=
  inv_withRegs h u (HostRegs.write_legal (inv_regs h u) reg v)

theorem inv_illegalCommand {s : State} (h : s.Inv) (u : UnitId) : (s.illegalCommand u).Inv :=
  inv_withRegs h u ((s.regs u).report_legal fun _ => rfl)

theorem inv_resetUnit {s : State} (h : s.Inv) (u : UnitId) : (s.resetUnit u).Inv := by
  obtain ⟨hbw, hbr, hsnap, hbwRegs, hbrRegs, hbuf⟩ := h
  cases u with
  | bw => exact ⟨Accum.empty_legal, hbr, hsnap, HostRegs.reset_legal, hbrRegs, hbuf⟩
  | br => exact ⟨hbw, Accum.empty_atRest, Accum.empty_atRest, hbwRegs, HostRegs.reset_legal, hbuf⟩

theorem inv_reset : State.reset.Inv :=
  ⟨Accum.empty_legal, Accum.empty_atRest, Accum.empty_atRest, HostRegs.reset_legal, HostRegs.reset_legal, by decide⟩

/-! ## The invariant, from a command up to a step -/

theorem exec_inv (i : Instr) {s t : State} (h : s.Inv) (ht : exec i s = .next t) : t.Inv := by
  have ⟨hbw, hbr, hsnap, _, _, hbuf⟩ := h
  cases i with
  | wrbits n => cases ht; exact inv_finishBw h (wrBits_legal _ n hbw) (wrBits_ending_legal _ n _)
  | wrbyte => cases ht; exact inv_finishBw h (wrBits_legal _ 8 hbw) (wrBits_ending_legal _ 8 _)
  | wrbuf => cases ht; exact inv_finishBw h (wrBuf_legal _ _ _ hbw) (wrBuf_ending_legal _ _ _ _)
  | wflush => cases ht; exact inv_finishBw h hbw (Ending.legal_ok 0)
  | wclose => cases ht; exact inv_finishBw h ((wClose_acc s.writer).symm ▸ hbw) (wClose_ending_legal _)
  | rdbits n => cases ht; exact inv_finishBr h (rdBits_atRest n hbr) (rdBits_ending_legal n _)
  | rdbyte => cases ht; exact inv_finishBr h (rdByte_atRest hbr) (rdByte_ending_legal _)
  | rdbuf =>
    cases ht
    exact inv_withBuffer (inv_finishBr h (rdBuf_atRest _ _ _ hbr) (rdBuf_ending_legal _ _ _ _)) (rdBuf_wf _ _ _ hbuf)
  | mark =>
    cases ht
    have hs := inv_withSnap h hbr
    obtain ⟨p, hx, -⟩ | ⟨p, hx, -⟩ := markSource_cases s.br.regs.limit s.reader <;> rw [hx]
    · exact inv_finishBr hs hbr (Ending.legal_ok 0)
    · exact inv_finishBr hs hbr trivial
  | reset =>
    cases ht
    obtain ⟨p, hx, -⟩ | ⟨p, hx, -⟩ | ⟨p, hx, -⟩ := resetSource_cases s.br.snap s.reader <;> rw [hx]
    · exact inv_finishBr h hsnap (Ending.legal_ok 0)
    · exact inv_finishBr h hbr (Ending.legal_raise _)
    · exact inv_finishBr h hbr trivial
  | skip => cases ht; exact inv_finishBr h (skipLoop_atRest _ _ hbr) (skipLoop_ending_legal _ _ _)

theorem issue_inv {u : UnitId} {w : Word} {s t : State} (h : s.Inv) (ht : issue u w s = .next t) : t.Inv := by
  have hlatched := inv_hostWrite h u .cmd w
  unfold issue at ht
  split at ht
  · cases ht; exact h
  · split at ht
    · exact exec_inv _ hlatched ht
    · cases ht; exact inv_illegalCommand hlatched u

theorem writeRegister_inv {u : UnitId} {reg : HostReg} {v : Word} {s t : State} (h : s.Inv)
    (ht : writeRegister u reg v s = .next t) : t.Inv := by
  cases reg
  case cmd => exact issue_inv h ht
  all_goals (cases ht; exact inv_hostWrite h u _ v)

theorem runEvent_inv {e : Event} {s t : State} (h : s.Inv) (ht : runEvent e s = .next t) : t.Inv := by
  cases e <;> simp only [runEvent] at ht
  case write | writeAt =>
    split at ht
    · cases ht
    · exact writeRegister_inv h ht
  case read | readAt =>
    split at ht
    · cases ht
    · cases ht; exact h
  case reset u => cases ht; exact inv_resetUnit h u
  case storeBuffer u a v =>
    cases ht
    have ⟨_, _, _, _, _, hbuf⟩ := h
    exact inv_withBuffer h (BufferSpace.wf_write hbuf u a.isLt v)
  case attachSink | attachSource => cases ht; exact h

theorem step_inv {s t : State} (h : s.Inv) (ht : step s = .next t) : t.Inv := by
  unfold step at ht
  split at ht
  next => cases ht; exact h
  next e rest _ => exact runEvent_inv (s := { s with host := rest }) h ht

/-! ## When the writer's accumulator is left full (10_state.md R13(c)) -/

/-- What R13(c) says of a writing command that took writer `w` to the end `x`: the accumulator is not full, or it is
full because the last transaction, the write of the byte it holds, was refused or is never answered. -/
def FullOnlyIfLastWriteFailed (w : Writer) (x : Ending SinkReq × Writer) : Prop :=
  x.2.acc.occ ≤ 7 ∨
  (x.2.acc.occ = 8 ∧
    ((x.1 = .done (raise .ioError) ∧ ∃ es, x.2.port.trace = w.port.trace ++ es ++ [⟨.write x.2.acc.buf, .ioerr⟩]) ∨
      x.1 = .blocked (.write x.2.acc.buf)))

/-- Transactions answered before do not matter. -/
theorem FullOnlyIfLastWriteFailed.after {w w' : Writer} {x : Ending SinkReq × Writer} {ws : List SinkEvent}
    (ht : w'.port.trace = w.port.trace ++ ws) (h : FullOnlyIfLastWriteFailed w' x) : FullOnlyIfLastWriteFailed w x := by
  obtain h7 | ⟨h8, ⟨hd, es, he⟩ | hb⟩ := h
  · exact .inl h7
  · exact .inr ⟨h8, .inl ⟨hd, ws ++ es, by rw [he, ht, List.append_assoc w.port.trace]⟩⟩
  · exact .inr ⟨h8, .inr hb⟩

theorem WriteOutcome.fullOnlyIfLastWriteFailed {value rem : Nat} {w : Writer} {x : Ending SinkReq × Writer} (h0 : rem ≠ 0)
    (h : WriteOutcome value rem w x) : FullOnlyIfLastWriteFailed w x := by
  obtain ⟨-, es, _, -, -, -, ⟨-, -, -, hocc, -⟩ | ⟨hd, h8, ht⟩ | ⟨hb, h8, -⟩⟩ := h
  · have hmod := (hocc h0).1
    exact .inl (by omega)
  · exact .inr ⟨h8, .inl ⟨hd, es, ht⟩⟩
  · exact .inr ⟨h8, .inr hb⟩

theorem wrBits_fullOnlyIfLastWriteFailed (v : Word) (n : Nat) {w : Writer} (h : w.acc.atRest) :
    FullOnlyIfLastWriteFailed w (wrBits v n w) := by
  by_cases hok : (1 ≤ n ∧ n ≤ 32) ∧ v.toNat ≤ 2 ^ n - 1
  · exact (wrBits_cases hok.1 hok.2 h.legal).fullOnlyIfLastWriteFailed (by omega)
  · rw [wrBits_invalid hok]; exact .inl h.1

theorem wrBytes_fullOnlyIfLastWriteFailed (b : BufferSpace) (a n : Nat) {w : Writer} (h : w.acc.atRest) :
    FullOnlyIfLastWriteFailed w (wrBytes b a n w) := by
  induction n generalizing a w with
  | zero => exact .inl h.1
  | succ n ih =>
    have hfirst := wrBits_fullOnlyIfLastWriteFailed ((b.read .bw a).setWidth 32) 8 h
    obtain ⟨hlegal, es, _, -, -, -, hend⟩ := wrBits_cases (n := 8) (by decide) (element_fits (b.read .bw a)).2 h.legal
    unfold wrBytes wrByte
    generalize wrBits ((b.read .bw a).setWidth 32) 8 w = x at *
    obtain ⟨e, w'⟩ := x
    obtain ⟨hd, -, ht, hocc, -⟩ | ⟨hd, -⟩ | ⟨hb, -⟩ := hend
    · cases hd
      have hmod := (hocc (by decide)).1
      exact (ih (a + 1) ⟨by omega, hlegal.2⟩).after ht
    · cases hd; exact hfirst
    · simp only at hb; subst hb; exact hfirst

theorem wrBuf_fullOnlyIfLastWriteFailed (b : BufferSpace) (o l : Word) {w : Writer} (h : w.acc.atRest) :
    FullOnlyIfLastWriteFailed w (wrBuf b o l w) := by
  unfold wrBuf
  split
  · exact wrBytes_fullOnlyIfLastWriteFailed b _ _ h
  · exact .inl h.1

/-- Every BW command runs an algorithm on the writer and writes its end back; started at rest, it leaves the
accumulator full only after a failed emission. -/
theorem exec_bw_fullOnlyIfLastWriteFailed {i : Instr} {s t : State} (hu : i.unit = .bw) (h : s.bw.acc.atRest)
    (ht : exec i s = .next t) : ∃ x, t = s.finishBw x ∧ FullOnlyIfLastWriteFailed s.writer x := by
  cases i with
  | wrbits n => cases ht; exact ⟨_, rfl, wrBits_fullOnlyIfLastWriteFailed _ n h⟩
  | wrbyte => cases ht; exact ⟨_, rfl, wrBits_fullOnlyIfLastWriteFailed _ 8 h⟩
  | wrbuf => cases ht; exact ⟨_, rfl, wrBuf_fullOnlyIfLastWriteFailed _ _ _ h⟩
  | wflush => cases ht; exact ⟨_, rfl, .inl h.1⟩
  | wclose => cases ht; exact ⟨_, rfl, .inl ((wClose_acc s.writer).symm ▸ h.1)⟩
  | rdbits | rdbyte | rdbuf | mark | reset | skip => cases hu

/-! ## What a host access does (10_state.md R18) -/

theorem step_of_write {s : State} {u : UnitId} {v : Word} {rest : List Event} (reg : HostReg)
    (h : s.host = .write u reg.offset v :: rest) : step s = writeRegister u reg v { s with host := rest } := by
  simp only [step, h, runEvent, atOffset_offset]

theorem step_of_read {s : State} {u : UnitId} {rest : List Event} (reg : HostReg)
    (h : s.host = .read u reg.offset :: rest) :
    step s = .next { s with host := rest, readData := (s.regs u).read reg } := by
  simp only [step, h, runEvent, atOffset_offset]
  cases u <;> rfl

theorem hostWrite_withHost (s : State) (rest : List Event) (u : UnitId) (reg : HostReg) (v : Word) :
    State.hostWrite { s with host := rest } u reg v =
      State.withRegs { s with host := rest } u ((s.regs u).write reg v) := by
  cases u <;> rfl

theorem withRegs_regs (s : State) (u : UnitId) : s.withRegs u (s.regs u) = s := by cases u <;> rfl

/-- STATUS and RESULT ignore a host write (R18). -/
theorem hostWrite_readOnly (s : State) (u : UnitId) {reg : HostReg} (hreg : reg = .status ∨ reg = .result) (v : Word) :
    s.hostWrite u reg v = s := by
  obtain rfl | rfl := hreg <;> exact withRegs_regs s u

/-! ## The obligations of the family -/

/-- Settles O15: a command keeps the invariant by the ends of its algorithm, every other event by its own update. -/
theorem everyStepKeepsTheStateLegal : Obligations.EveryStepKeepsTheStateLegal := fun _ _ => step_inv

/-- Settles O26: the writer's end, written back to the unit. -/
theorem fullAccumulatorOnlyAfterAFailedEmission : Obligations.FullAccumulatorOnlyAfterAFailedEmission := by
  intro i s t hu h ht
  obtain ⟨x, rfl, h7 | ⟨h8, ⟨hd, hlast⟩ | hb⟩⟩ := exec_bw_fullOnlyIfLastWriteFailed hu h ht
  · exact .inl h7
  · refine .inr ⟨h8, .inl ⟨⟨?_, ?_, ?_⟩, hlast⟩⟩ <;> simp [State.blocked, hd, ErrorKind.code]
  · exact .inr ⟨h8, .inr (by simp [hb])⟩

/-- Settles O1: the two units are reset to the table of R23. -/
theorem resetLeavesTheStatedValues : Obligations.ResetLeavesTheStatedValues :=
  ⟨rfl, rfl, rfl, fun u => by cases u <;> rfl⟩

/-- Settles O3, register by register: a write latches or is ignored, a read gives the register's word or 0. -/
theorem hostRegisterAccesses : Obligations.HostRegisterAccesses := by
  intro s u rest v
  refine ⟨fun h => ?_, fun h => ?_, ?_, ?_, step_of_read .status, step_of_read .result⟩
  · exact (step_of_write .arg0 h).trans (congrArg Host.Outcome.next (hostWrite_withHost s rest u .arg0 v))
  · exact (step_of_write .arg1 h).trans (congrArg Host.Outcome.next (hostWrite_withHost s rest u .arg1 v))
  · rintro o (rfl | rfl) h
    · exact (step_of_write .status h).trans (congrArg Host.Outcome.next (hostWrite_readOnly _ u (.inl rfl) v))
    · exact (step_of_write .result h).trans (congrArg Host.Outcome.next (hostWrite_readOnly _ u (.inr rfl) v))
  · rintro o (rfl | rfl | rfl) h
    · exact step_of_read .arg0 h
    · exact step_of_read .arg1 h
    · exact step_of_read .cmd h

/-- Settles O5: with no event, `step` returns the state it was given. -/
theorem idleMachineKeepsItsState : Obligations.IdleMachineKeepsItsState := by
  intro s h
  rw [step, h]

/-- Settles O14: reset leaves empty accumulators, zero registers and an empty buffer space. -/
theorem legalStateAtReset : Obligations.LegalStateAtReset := inv_reset

end Sys2Proof.Machine

/-! SUPPORT. The memory and interface family: what a command of each unit may touch, what the ports' encodings are, what
the reference environment answers, and where a host address lands (20_memory.md R31 to R47). -/

namespace Sys2Proof.Machine

/-! ## A command as a run of its own unit (20_memory.md R47)

`writerRun` and `readerRun` name all that a command of BW, or of BR, may look at; `exec_of_bw` and `exec_of_br` tie them
to `exec` and name all that it may write. -/

/-- What a BW command makes of its unit's registers, the buffer space and the writer; nothing, of a BR command. -/
def writerRun (i : Instr) (regs : HostRegs) (b : BufferSpace) (w : Writer) : Ending SinkReq × Writer :=
  match i with
  | .wrbits n => wrBits regs.value n w
  | .wrbyte => wrByte regs.byte w
  | .wrbuf => wrBuf b regs.offset regs.length w
  | .wclose => wClose w
  | .wflush | .rdbits _ | .rdbyte | .rdbuf | .mark | .reset | .skip => (.done (Response.ok 0), w)

/-- What a BR command makes of its unit's registers and snapshot, the reader and the buffer space; nothing, of a BW command. -/
def readerRun (i : Instr) (regs : HostRegs) (snap : Accum) (r : Reader) (b : BufferSpace) :
    Ending SourceReq × Reader × BufferSpace :=
  let alone (x : Ending SourceReq × Reader) := (x.1, x.2, b)
  match i with
  | .rdbits n => alone (rdBits n r)
  | .rdbyte => alone (rdByte r)
  | .rdbuf => rdBuf regs.offset regs.length r b
  | .mark => alone (markSource regs.limit r)
  | .reset => alone (resetSource snap r)
  | .skip => alone (skipLoop regs.count.toNat 0 r)
  | .wrbits _ | .wrbyte | .wrbuf | .wflush | .wclose => alone (.done (Response.ok 0), r)

/-- The snapshot after a command: MARK takes it, no other command changes it (R98). -/
def snapAfter (i : Instr) (u : BrUnit) : Accum := if i = .mark then u.acc else u.snap

/-- The state after a BR command that left the snapshot `snap` and stood at the end `x`. -/
def State.finishReaderRun (s : State) (snap : Accum) (x : Ending SourceReq × Reader × BufferSpace) : State :=
  { ({ s with br := { s.br with snap := snap } } : State).finishBr (x.1, x.2.1) with buffer := x.2.2 }

theorem exec_of_bw {i : Instr} (hu : i.unit = .bw) (s : State) :
    exec i s = .next (s.finishBw (writerRun i s.bw.regs s.buffer s.writer)) := by
  cases i with
  | wrbits | wrbyte | wrbuf | wflush | wclose => rfl
  | rdbits | rdbyte | rdbuf | mark | reset | skip => cases hu

theorem exec_of_br {i : Instr} (hu : i.unit = .br) (s : State) :
    exec i s = .next (s.finishReaderRun (snapAfter i s.br) (readerRun i s.br.regs s.br.snap s.reader s.buffer)) := by
  cases i with
  | rdbits | rdbyte | rdbuf | mark | reset | skip => rfl
  | wrbits | wrbyte | wrbuf | wflush | wclose => cases hu

/-- Only WRBUF reads the buffer space. -/
theorem writerRun_buffer {i : Instr} (h : i ≠ .wrbuf) (regs : HostRegs) (b c : BufferSpace) (w : Writer) :
    writerRun i regs b w = writerRun i regs c w := by
  cases i
  case wrbuf => exact absurd rfl h
  all_goals rfl

/-- Only RDBUF stores into the buffer space. -/
theorem readerRun_buffer {i : Instr} (h : i ≠ .rdbuf) (regs : HostRegs) (snap : Accum) (r : Reader) (b : BufferSpace) :
    (readerRun i regs snap r b).2.2 = b := by
  cases i
  case rdbuf => exact absurd rfl h
  all_goals rfl

/-! ## Traces only grow -/

theorem wrBits_trace (v : Word) (n : Nat) (w : Writer) : w.port.trace <+: (wrBits v n w).2.port.trace := by
  by_cases hok : (1 ≤ n ∧ n ≤ 32) ∧ v.toNat ≤ 2 ^ n - 1
  · obtain ⟨ws, ht, -⟩ := wrBits_answers hok.1 hok.2 w
    exact ⟨ws, ht.symm⟩
  · rw [wrBits_invalid hok]

theorem wrBuf_trace (b : BufferSpace) (o l : Word) (w : Writer) : w.port.trace <+: (wrBuf b o l w).2.port.trace := by
  unfold wrBuf
  split
  · obtain ⟨ws, ht, -⟩ := wrBytes_answers b o.toNat l.toNat w
    exact ⟨ws, ht.symm⟩
  · exact List.prefix_rfl

theorem wClose_trace (w : Writer) : w.port.trace <+: (wClose w).2.port.trace := by
  obtain ⟨-, _, ht, -⟩ := closeSteps_cases (closeRequests w.acc) false w
  exact ⟨_, ht.symm⟩

theorem rdBits_trace (n : Nat) (r : Reader) : r.port.trace <+: (rdBits n r).2.port.trace := by
  by_cases hn : 1 ≤ n ∧ n ≤ 32
  · obtain ⟨rs, ht, -⟩ := rdBits_answers hn r
    exact ⟨rs, ht.symm⟩
  · rw [rdBits_invalid hn]

theorem rdByte_trace (r : Reader) : r.port.trace <+: (rdByte r).2.port.trace := by
  rw [rdByte_snd]; exact rdBits_trace 8 r

theorem rdBuf_trace (o l : Word) (r : Reader) (b : BufferSpace) : r.port.trace <+: (rdBuf o l r b).2.1.port.trace := by
  unfold rdBuf
  split
  · obtain ⟨rs, ht, -⟩ := fillLoop_answers o.toNat l.toNat 0 r b
    exact ⟨rs, ht.symm⟩
  · exact List.prefix_rfl

theorem skipLoop_trace (left cnt : Nat) (r : Reader) : r.port.trace <+: (skipLoop left cnt r).2.port.trace := by
  obtain ⟨rs, ht, -⟩ := skipLoop_answers left cnt r
  exact ⟨rs, ht.symm⟩

theorem markSource_trace (l : Word) (r : Reader) : r.port.trace <+: (markSource l r).2.port.trace := by
  obtain ⟨p, hx, -, ht⟩ | ⟨p, hx, ht⟩ := markSource_cases l r <;> rw [hx]
  · exact ⟨_, ht.symm⟩
  · rw [ht]

theorem resetSource_trace (snap : Accum) (r : Reader) : r.port.trace <+: (resetSource snap r).2.port.trace := by
  obtain ⟨p, hx, -, ht⟩ | ⟨p, hx, -, ht⟩ | ⟨p, hx, ht⟩ := resetSource_cases snap r <;> rw [hx]
  · exact ⟨_, ht.symm⟩
  · exact ⟨_, ht.symm⟩
  · rw [ht]

theorem writerRun_trace (i : Instr) (regs : HostRegs) (b : BufferSpace) (w : Writer) :
    w.port.trace <+: (writerRun i regs b w).2.port.trace := by
  cases i with
  | wrbits n => exact wrBits_trace _ n w
  | wrbyte => exact wrBits_trace _ 8 w
  | wrbuf => exact wrBuf_trace b _ _ w
  | wclose => exact wClose_trace w
  | wflush | rdbits | rdbyte | rdbuf | mark | reset | skip => exact List.prefix_rfl

theorem readerRun_trace (i : Instr) (regs : HostRegs) (snap : Accum) (r : Reader) (b : BufferSpace) :
    r.port.trace <+: (readerRun i regs snap r b).2.1.port.trace := by
  cases i with
  | rdbits n => exact rdBits_trace n r
  | rdbyte => exact rdByte_trace r
  | rdbuf => exact rdBuf_trace _ _ r b
  | mark => exact markSource_trace _ r
  | reset => exact resetSource_trace snap r
  | skip => exact skipLoop_trace _ 0 r
  | wrbits | wrbyte | wrbuf | wflush | wclose => exact List.prefix_rfl

/-! ## What the accumulators and the buffer space keep -/

theorem markSource_acc (l : Word) (r : Reader) : (markSource l r).2.acc = r.acc := by
  obtain ⟨p, hx, -⟩ | ⟨p, hx, -⟩ := markSource_cases l r <;> rw [hx]

/-- RDBUF stores nowhere outside its transfer; a range that wraps stores nothing (R37, R96). -/
theorem rdBuf_read (o l : Word) (r : Reader) {b : BufferSpace} (hb : b.wf) (u : UnitId) {a : Nat}
    (ha : a < o.toNat ∨ o.toNat + l.toNat ≤ a) : (rdBuf o l r b).2.2.read u a = b.read u a := by
  unfold rdBuf
  split
  next hrange => exact (fillLoop_frame _ _ 0 r hb ((rangeOk_iff o l).1 hrange)).2 u a ha
  next => rfl

/-! ## Where a host address lands (20_memory.md R45) -/

/-- A write at the address of a register is the write of that register by unit and offset. -/
theorem step_of_writeAt {s : State} {a : Nat} {v : Word} {rest : List Event} {u : UnitId} {reg : HostReg}
    (hl : s.map.locate a = some (u, reg)) (h : s.host = .writeAt a v :: rest) :
    step s = step { s with host := .write u reg.offset v :: rest } := by
  simp only [step, h, runEvent, hl, atOffset_offset]

/-- A read at the address of a register is the read of that register by unit and offset. -/
theorem step_of_readAt {s : State} {a : Nat} {rest : List Event} {u : UnitId} {reg : HostReg}
    (hl : s.map.locate a = some (u, reg)) (h : s.host = .readAt a :: rest) :
    step s = step { s with host := .read u reg.offset :: rest } := by
  simp only [step, h, runEvent, hl, atOffset_offset]

/-- A command does the same wherever the register blocks are. -/
theorem exec_withMap {i : Instr} {s t : State} (m : AddressMap) (h : exec i s = .next t) :
    exec i { s with map := m } = .next { t with map := m } := by
  cases hu : i.unit with
  | bw => rw [exec_of_bw hu] at h ⊢; cases h; rfl
  | br => rw [exec_of_br hu] at h ⊢; cases h; rfl

/-! ## The ports and the reference environment (20_memory.md R32, R34, R36) -/

theorem SinkReq.kind_ne_three (r : SinkReq) : r.kind ≠ 0b11 := by
  cases r <;> simp [SinkReq.kind]

theorem SourceReq.kind_ne_three (r : SourceReq) : r.kind ≠ 0b11 := by
  cases r <;> simp [SourceReq.kind]

/-- Once closed, or at a listed ordinal, the reference sink refuses; all it keeps of the request is its count. -/
theorem RefSink.answer_refused {k : RefSink} (h : k.isOpen = false ∨ k.made + 1 ∈ k.failing) (r : SinkReq) :
    k.answer r = (.ioerr, { k with made := k.made + 1 }) := by
  unfold RefSink.answer
  split
  next => rfl
  next hf => rw [h.resolve_right hf]; rfl

/-- Open, and at an ordinal that is not listed, the reference sink accepts; a close is what closes it. -/
theorem RefSink.answer_accepted {k : RefSink} (ho : k.isOpen = true) (hf : k.made + 1 ∉ k.failing) (b : Byte) :
    k.answer (.write b) = (.ok, { k with made := k.made + 1, out := k.out ++ [b] }) ∧
    k.answer .flush = (.ok, { k with made := k.made + 1 }) ∧
    k.answer .close = (.ok, { k with made := k.made + 1, isOpen := false }) := by
  simp only [RefSink.answer, if_neg hf, if_pos ho, and_self]

theorem RefSource.read_of_lt (k : RefSource) (h : k.pos < k.bytes.length) :
    k.read = (.byte k.bytes[k.pos], { k with pos := k.pos + 1 }) := by
  rw [RefSource.read, List.getElem?_eq_getElem h]

theorem RefSource.read_of_ge (k : RefSource) (h : k.bytes.length ≤ k.pos) : k.read = (.eod, k) := by
  rw [RefSource.read, List.getElem?_eq_none h]

/-! ## The obligations of the family -/

/-- Settles O19: a BW command writes back its own accumulator, response and port only. -/
theorem writerCommandsFrame : Obligations.WriterCommandsFrame := by
  intro i s t hu ht
  rw [exec_of_bw hu] at ht
  cases ht
  refine ⟨rfl, rfl, rfl, rfl, rfl, rfl, ending_arg0 _ _, ending_arg1 _ _, ending_cmd _ _, writerRun_trace i _ _ s.writer,
    ?_, ?_, fun _ _ => rfl⟩
  · rintro (rfl | rfl)
    · rfl
    · exact wClose_acc s.writer
  · rintro rfl
    rfl

/-- Settles O20: a BR command writes back its own accumulator, snapshot, response and port, and RDBUF the bytes of its
transfer. -/
theorem readerCommandsFrame : Obligations.ReaderCommandsFrame := by
  intro i s t hu hb ht
  rw [exec_of_br hu] at ht
  cases ht
  have hbuf (h : i ≠ .rdbuf) := readerRun_buffer h s.br.regs s.br.snap s.reader s.buffer
  refine ⟨rfl, rfl, rfl, rfl, rfl, ending_arg0 _ _, ending_arg1 _ _, ending_cmd _ _, readerRun_trace i _ _ s.reader _,
    fun h => if_neg h, ?_, hbuf, fun u a ha => ?_⟩
  · rintro rfl
    exact markSource_acc _ s.reader
  · by_cases hi : i = .rdbuf
    · subst hi
      exact rdBuf_read _ _ s.reader hb u (ha rfl)
    · exact congrArg (·.read u a) (hbuf hi)

/-- Settles O50: an address reaches the register it is located at, and no command reads or writes the map. -/
theorem hostAddressesReachTheRegisters : Obligations.HostAddressesReachTheRegisters := by
  refine ⟨fun s u reg v rest => ⟨base_aligned _ _, fun halone => ?_⟩, fun _ _ => step_map, fun _ _ _ m => exec_withMap m⟩
  have hl := (locate_iff s.map _ u reg).2 ⟨rfl, halone⟩
  exact ⟨step_of_writeAt hl, step_of_readAt hl⟩

/-- Settles O21: the two units meet in the buffer space only, and there only if one reads what the other stores. -/
theorem unitsDoNotCommunicate : Obligations.UnitsDoNotCommunicate := by
  intro i j s s₁ s₂ hi hj hij h₁ h₂
  rw [exec_of_bw hi] at h₁
  rw [exec_of_br hj] at h₂
  cases h₁
  cases h₂
  have hsame : writerRun i s.bw.regs (readerRun j s.br.regs s.br.snap s.reader s.buffer).2.2 s.writer =
      writerRun i s.bw.regs s.buffer s.writer := by
    by_cases hb : i = .wrbuf
    · rw [readerRun_buffer (hij hb)]
    · exact writerRun_buffer hb _ _ _ _
  refine ⟨_, exec_of_br hj _, (exec_of_bw hi _).trans ?_⟩
  exact congrArg (fun x => Host.Outcome.next (State.finishBw _ x)) hsame

/-- Settles O48: the tables of R32 and R34, entry by entry. -/
theorem portEncodings : Obligations.PortEncodings :=
  ⟨fun _ => ⟨rfl, rfl⟩, rfl, rfl, rfl, rfl, rfl, rfl, fun _ => ⟨rfl, rfl⟩, rfl, rfl, SinkReq.kind_ne_three,
    SourceReq.kind_ne_three, rfl, rfl, rfl, rfl, rfl, fun _ => ⟨rfl, rfl⟩, rfl, rfl⟩

/-- Settles O49: accepting and refusing, delivering and ending, rewinding. -/
theorem referenceEnvironment : Obligations.ReferenceEnvironment := by
  refine ⟨fun k b ho hf => ?_, fun k r h => ?_, fun k h => ?_, RefSource.read_of_ge, fun _ => rfl⟩
  · obtain ⟨hwrite, hflush, hclose⟩ := RefSink.answer_accepted ho hf b
    rw [hwrite, hflush, hclose]
    exact ⟨rfl, rfl, rfl, rfl, rfl⟩
  · rw [RefSink.answer_refused h]
    exact ⟨rfl, rfl⟩
  · rw [RefSource.read_of_lt k h]
    exact ⟨rfl, rfl⟩

end Sys2Proof.Machine

/-! SUPPORT. The encoding family: which words decode, to what, and what encodes to them; issuing a word; and that five
passes carry every run (30_encoding.md R50 to R56). -/

namespace Sys2Proof.Machine

/-! ## The fields of a command word (R51) -/

/-- A word is its three fields. -/
theorem fields_append (w : Word) : opcField w ++ rsvField w ++ nField w = w := by
  have hhigh : opcField w ++ rsvField w = w.extractLsb' 8 24 :=
    BitVec.extractLsb'_append_extractLsb'_eq_extractLsb' rfl
  have hall : w.extractLsb' 8 24 ++ nField w = w.extractLsb' 0 32 :=
    BitVec.extractLsb'_append_extractLsb'_eq_extractLsb' rfl
  rw [hhigh, hall, BitVec.extractLsb'_eq_self]

theorem eq_iff_fields (v w : Word) :
    v = w ↔ opcField v = opcField w ∧ rsvField v = rsvField w ∧ nField v = nField w := by
  refine ⟨by rintro rfl; exact ⟨rfl, rfl, rfl⟩, fun ⟨ho, hr, hn⟩ => ?_⟩
  rw [← fields_append v, ← fields_append w, ho, hr, hn]

theorem opcField_and (v w : Word) : opcField (v &&& w) = opcField v &&& opcField w := BitVec.extractLsb'_and
theorem rsvField_and (v w : Word) : rsvField (v &&& w) = rsvField v &&& rsvField w := BitVec.extractLsb'_and
theorem nField_and (v w : Word) : nField (v &&& w) = nField v &&& nField w := BitVec.extractLsb'_and

/-- `n` of R52 is the field `N`. -/
theorem toNat_lowByte (w : Word) : (w &&& 0xFF).toNat = (nField w).toNat := by
  rw [nField, BitVec.extractLsb'_toNat, BitVec.toNat_and, Nat.shiftRight_zero]
  exact Nat.and_two_pow_sub_one_eq_mod w.toNat 8

/-! ## What a word decodes to -/

theorem wellFormed_iff_count (i : Instr) : i.wellFormed = true ↔ i.count ≤ 255 := by
  cases i <;> simp [Instr.wellFormed, Instr.count]

theorem withoutCount_ok_iff {n : Byte} {i j : Instr} : withoutCount n i = .ok j ↔ i = j ∧ n = 0 := by
  unfold withoutCount
  split
  · simp only [Except.ok.injEq, and_iff_left ‹n = 0›]
  · simp only [reduceCtorEq, false_iff]
    exact fun h => absurd h.2 ‹¬n = 0›

/-- The opcode map, read as a relation: it takes `OPC` and `N` to the one command that has both. -/
theorem decodeOpcode_ok_iff (opc n : Byte) (i : Instr) :
    decodeOpcode opc n = .ok i ↔ opc = i.opcode ∧ n.toNat = i.count := by
  constructor
  · intro h
    unfold decodeOpcode at h
    split at h
    case h_1 hopc | h_6 hopc => cases h; exact ⟨BitVec.eq_of_toNat_eq hopc, rfl⟩
    case h_12 => cases h
    all_goals
      rename_i hopc
      obtain ⟨rfl, rfl⟩ := withoutCount_ok_iff.1 h
      exact ⟨BitVec.eq_of_toNat_eq hopc, rfl⟩
  · rintro ⟨rfl, hn⟩
    cases i
    case wrbits | rdbits => cases hn; rfl
    all_goals exact withoutCount_ok_iff.2 ⟨rfl, BitVec.eq_of_toNat_eq hn⟩

theorem decode_ok_iff (w : Word) (i : Instr) :
    decode w = .ok i ↔ rsvField w = 0 ∧ opcField w = i.opcode ∧ (nField w).toNat = i.count := by
  unfold decode
  split
  · rw [decodeOpcode_ok_iff]
    exact (and_iff_right ‹rsvField w = 0›).symm
  · simp only [reduceCtorEq, false_iff]
    exact fun h => absurd h.1 ‹¬rsvField w = 0›

theorem decodeFor_unit {w : Word} {i : Instr} (h : decode w = .ok i) : decodeFor i.unit w = .ok i := by
  simp [decodeFor, h]

theorem decode_encode {i : Instr} (h : i.wellFormed = true) : decode (encode i) = .ok i := by
  obtain ⟨hopc, hrsv, hn⟩ := Laws.EncodeFields.fields i.opcode i.count
  have hc : i.count ≤ 255 := (wellFormed_iff_count i).1 h
  refine (decode_ok_iff _ _).2 ⟨hrsv, hopc, ?_⟩
  rw [encode, hn, BitVec.toNat_ofNat]
  exact Nat.mod_eq_of_lt (by omega)

theorem encode_decode {w : Word} {i : Instr} (h : decode w = .ok i) : encode i = w ∧ i.wellFormed = true := by
  obtain ⟨hrsv, hopc, hn⟩ := (decode_ok_iff w i).1 h
  constructor
  · rw [encode, ← hopc, ← hn, BitVec.ofNat_toNat, BitVec.setWidth_eq]
    have h := fields_append w
    rwa [hrsv] at h
  · have := (nField w).isLt
    exact (wellFormed_iff_count i).2 (by omega)

/-! ## The table of R52 -/

/-- Every row fixes `OPC` and `RSV`, the latter to zero, and whatever it fixes of `N` to zero. -/
theorem opcodeMap_masks : ∀ r ∈ opcodeMap, opcField r.mask = 0xFF ∧ rsvField r.mask = 0xFFFF ∧
    rsvField r.matchBits = 0 ∧ nField r.matchBits = 0 := by
  simp only [opcodeMap, List.forall_mem_cons]
  decide

theorem opcodeMap_opcode : ∀ r ∈ opcodeMap, ∀ n, (r.instr n).opcode = opcField r.matchBits := by
  simp [opcodeMap, Instr.opcode, opcField]

/-- A row leaves `N` free and takes it as its command's count, or fixes it because its command has none. -/
theorem opcodeMap_count : ∀ r ∈ opcodeMap,
    (nField r.mask = 0 ∧ ∀ n, (r.instr n).count = n) ∨ (nField r.mask = 0xFF ∧ ∀ n, (r.instr n).count = 0) := by
  simp [opcodeMap, Instr.count, nField]

theorem opcodeMap_opcodes_distinct : opcodeMap.Pairwise fun a b => opcField a.matchBits ≠ opcField b.matchBits := by
  decide

theorem exists_row (i : Instr) : ∃ r ∈ opcodeMap, r.instr i.count = i ∧ r.unit = i.unit := by
  cases i <;> simp [opcodeMap, Instr.count, Instr.unit]

/-- A row selects a word exactly when the word decodes to the row's command with the word's `N`. -/
theorem row_selects_iff {r : OpcodeRow} (hr : r ∈ opcodeMap) (w : Word) :
    w &&& r.mask = r.matchBits ↔ decode w = .ok (r.instr (nField w).toNat) := by
  obtain ⟨hopc, hrsv, hrsv0, hn0⟩ := opcodeMap_masks r hr
  have ho : opcField w &&& 0xFF = opcField w := BitVec.and_allOnes
  have hs : rsvField w &&& 0xFFFF = rsvField w := BitVec.and_allOnes
  have hn : nField w &&& nField r.mask = 0 ↔ (nField w).toNat = (r.instr (nField w).toNat).count := by
    obtain ⟨hmask, hcount⟩ | ⟨hmask, hcount⟩ := opcodeMap_count r hr
    · rw [hmask, hcount]
      exact iff_of_true BitVec.and_zero rfl
    · have hall : nField w &&& 0xFF = nField w := BitVec.and_allOnes
      rw [hmask, hcount, hall, ← BitVec.toNat_inj]
      rfl
  rw [eq_iff_fields, opcField_and, rsvField_and, nField_and, hopc, hrsv, hrsv0, hn0, ho, hs, hn, decode_ok_iff,
    opcodeMap_opcode r hr]
  exact and_left_comm

theorem opcField_of_row {r : OpcodeRow} (hr : r ∈ opcodeMap) {w : Word} (hw : w &&& r.mask = r.matchBits) :
    opcField w = opcField r.matchBits := by
  obtain ⟨-, hopc, -⟩ := (decode_ok_iff w _).1 ((row_selects_iff hr w).1 hw)
  rw [hopc, opcodeMap_opcode r hr]

/-! ## Issuing a word (R54, R55) -/

theorem issue_of_decodes {u : UnitId} {w : Word} {i : Instr} {s : State} (hb : s.blocked u = false)
    (hd : decodeFor u w = .ok i) : issue u w s = exec i (s.hostWrite u .cmd w) := by
  simp [issue, hb, hd]

theorem issue_of_illegal {u : UnitId} {w : Word} {e : Illegal} {s : State} (hb : s.blocked u = false)
    (hd : decodeFor u w = .error e) : issue u w s = .next ((s.hostWrite u .cmd w).illegalCommand u) := by
  simp [issue, hb, hd]

theorem blocked_withHost (s : State) (rest : List Event) (u : UnitId) :
    State.blocked { s with host := rest } u = s.blocked u := by cases u <;> rfl

theorem illegalCommand_eq_respond (s : State) (u : UnitId) : s.illegalCommand u = s.respond u 4 0 := rfl

/-! ## Passes of the chunk loops (R56) -/

theorem writeLoop_zero (fuel value : Nat) (w : Writer) : writeLoop fuel value 0 w = (.done (Response.ok 0), w) := by
  cases fuel <;> simp [writeLoop]

/-- Passes beyond those that carry a run change nothing: a pass leaves either nothing of the run or an empty
accumulator, so that only the first pass can place fewer than eight bits of a run that goes on. -/
theorem writeLoop_more_passes {fuel k : Nat} (value : Nat) {rem : Nat} {w : Writer} (h8 : w.acc.occ ≤ 8)
    (hf : rem = 0 ∨ w.acc.occ + rem ≤ 8 * fuel) (hk : fuel ≤ k) :
    writeLoop k value rem w = writeLoop fuel value rem w := by
  induction fuel generalizing k rem w with
  | zero =>
    obtain rfl : rem = 0 := by omega
    rw [writeLoop_zero, writeLoop_zero]
  | succ fuel ih =>
    obtain ⟨k, rfl⟩ := Nat.exists_eq_add_of_le' hk
    have hchunk : w.acc.chunkIn rem = min rem (8 - w.acc.occ) := rfl
    have hocc := append_occ w.acc value rem
    rw [← Nat.add_assoc, writeLoop, writeLoop]
    split
    · rfl
    · simp only
      split
      · split
        · exact ih (by simp) (by rw [Accum.empty_occ]; omega) (by omega)
        · rfl
        · rfl
      · exact ih (by rw [hocc]; omega) (.inl (by omega)) (by omega)

/-- A refill that lets the loop go on filled an empty accumulator, and left any other as it was. -/
theorem refill_ready_occ {r r' : Reader} (h : refill r = (.ready, r')) :
    (r.acc.occ = 0 ∧ r'.acc.occ = 8) ∨ (r.acc.occ ≠ 0 ∧ r'.acc.occ = r.acc.occ) := by
  unfold refill at h
  split at h
  · split at h <;> cases h
    exact .inl ⟨‹_›, rfl⟩
  · cases h
    exact .inr ⟨‹_›, rfl⟩

/-- As for the writer: a pass leaves either nothing of the run or an empty accumulator. -/
theorem readLoop_more_passes {fuel k rem : Nat} (result : Nat) {r : Reader} (h8 : r.acc.occ ≤ 8)
    (hf : ReadFuel fuel rem r.acc.occ) (hk : fuel ≤ k) : readLoop k rem result r = readLoop fuel rem result r := by
  induction fuel generalizing k rem result r with
  | zero =>
    obtain rfl : rem = 0 := by rcases hf with h | h | h <;> omega
    rw [readLoop_zero, readLoop_zero]
  | succ fuel ih =>
    obtain ⟨k, rfl⟩ := Nat.exists_eq_add_of_le' hk
    rw [← Nat.add_assoc, readLoop, readLoop]
    split
    · rfl
    · split
      · rfl
      · rename_i r' hr
        have hchunk : r'.acc.chunkOut rem = min rem r'.acc.occ := rfl
        have hrefill := refill_ready_occ hr
        refine ih _ ?_ ?_ (by omega) <;> rw [drop_occ]
        · omega
        · unfold ReadFuel at *
          omega

/-! ## The obligations of the family -/

/-- Settles O11: the fields of an encoded command are the command's own, and they determine what the word decodes to. -/
theorem decodeOfEncodeIsTheCommand : Obligations.DecodeOfEncodeIsTheCommand :=
  fun _ h => ⟨decode_encode h, decodeFor_unit (decode_encode h)⟩

/-- Settles O12: a word is its three fields, and those of a word that decodes are its command's. -/
theorem encodeOfDecodeIsTheWord : Obligations.EncodeOfDecodeIsTheWord := fun _ _ => encode_decode

/-- Settles O9: the row of the command a word decodes to selects the word, and two rows that select one word have the
same opcode. -/
theorem decodeFollowsTheOpcodeMap : Obligations.DecodeFollowsTheOpcodeMap := by
  refine ⟨fun w i => ⟨fun h => ?_, ?_⟩, opcodeMap_opcodes_distinct.imp_of_mem fun {a b} ha hb hne w => ?_⟩
  · obtain ⟨r, hr, hi, hu⟩ := exists_row i
    obtain ⟨-, -, hn⟩ := (decode_ok_iff w i).1 h
    rw [← hn] at hi
    exact ⟨r, hr, (row_selects_iff hr w).2 (hi.symm ▸ h), by rw [toNat_lowByte, hi], hu.symm⟩
  · rintro ⟨r, hr, hw, rfl, -⟩
    rw [toNat_lowByte]
    exact (row_selects_iff hr w).1 hw
  · rintro ⟨hwa, hwb⟩
    exact hne ((opcField_of_row ha hwa).symm.trans (opcField_of_row hb hwb))

/-- Settles O22: five passes are enough fuel for 32 bits from any legal accumulator, so more change nothing. -/
theorem fivePassesCarryEveryRun : Obligations.FivePassesCarryEveryRun :=
  ⟨fun _ value _ _ hk hn h => writeLoop_more_passes value h.1 (writeFuel hn h.1) hk,
    fun _ _ result _ hk hn h => readLoop_more_passes result h.legal.1 (readFuel hn) hk⟩

/-- Settles O4: a write of CMD to a free unit issues the word, which runs its command or is answered as illegal. -/
theorem stepRunsTheDecodedCommand : Obligations.StepRunsTheDecodedCommand := by
  intro s u w rest h hb
  have hstep : step s = issue u w { s with host := rest } := step_of_write .cmd h
  have hfree := (blocked_withHost s rest u).trans hb
  refine ⟨fun i hd => ?_, fun e hd => ?_⟩
  · rw [hstep, issue_of_decodes hfree hd, hostWrite_withHost]
    rfl
  · rw [hstep, issue_of_illegal hfree hd, hostWrite_withHost, illegalCommand_eq_respond]
    rfl

/-- Settles O13, by decoding the six words. -/
theorem writtenOutWordsDecode : Obligations.WrittenOutWordsDecode := ⟨rfl, rfl, rfl, rfl, rfl, rfl⟩

end Sys2Proof.Machine

/-! SUPPORT. The BitWriter family: what a run, an element loop and a WCLOSE append to the bits written so far, and the
stream law that follows (40_bitwriter.md R70 to R81). -/

namespace Sys2Proof.Machine

/-! ## A BW command's end, read off its state (30_encoding.md R55) -/

theorem finishBw_answered_iff (s : State) (x : Ending SinkReq × Writer) (c : Code) (v : Word) :
    (s.finishBw x).answered .bw c v ↔ x.1 = .done { code := c, value := v } := by
  obtain ⟨r | q, w⟩ := x
  · obtain ⟨d, u⟩ := r
    simp only [State.answered, State.blocked, finishBw_awaiting, regs_bw, finishBw_regs, done_pending, done_report,
      report_status, report_result, Option.isSome_none, true_and, Ending.done.injEq, Response.mk.injEq]
    exact and_congr_left' ⟨statusWord_inj, congrArg _⟩
  · simp [State.answered, State.blocked]

@[simp] theorem finishBw_outBits (s : State) (x : Ending SinkReq × Writer) : (s.finishBw x).outBits = x.2.out := rfl

/-- A command of a free unit that ends with a response and leaves the accumulator only responds, whatever it made of the
sink port. -/
theorem finishBw_done_eq_respond {s : State} (hb : s.blocked .bw = false) (x : Response) (p : SinkPort) :
    s.finishBw (.done x, { acc := s.bw.acc, port := p }) =
      ({ s with sink := p } : State).respond .bw (statusWord x.code) x.value := by
  have ha : s.bw.awaiting = none := Option.isNone_iff_eq_none.1 (Option.isSome_eq_false_iff.1 hb)
  simp only [State.finishBw, State.respond, State.withRegs, State.regs, done_pending, ha]
  rfl

/-- A command's end written back under another ARG0, then ARG0 restored: no end looks at ARG0. -/
theorem finishBw_withArg0 (s : State) (v : Word) (x : Ending SinkReq × Writer) :
    ((s.withRegs .bw { s.bw.regs with arg0 := v }).finishBw x).withRegs .bw
      { ((s.withRegs .bw { s.bw.regs with arg0 := v }).finishBw x).bw.regs with arg0 := s.bw.regs.arg0 } =
      s.finishBw x := by
  obtain ⟨_ | _, _⟩ := x <;> rfl

/-! ## Runs (R70 to R75) -/

theorem not_badArgument_wrbits_iff (n : Nat) (s : State) :
    ¬ badArgument (.wrbits n) s ↔ (1 ≤ n ∧ n ≤ 32) ∧ s.bw.regs.value.toNat ≤ 2 ^ n - 1 := by
  simp only [badArgument, HostRegs.value]
  omega

/-- Writes that were all accepted are the trace of a list of bytes. -/
theorem eq_writeEvents {es : List SinkEvent} (h : ∀ e ∈ es, e.ack = .ok ∧ ∃ b, e.req = .write b) :
    ∃ bs : List Byte, es = writeEvents bs := by
  induction es with
  | nil => exact ⟨[], rfl⟩
  | cons e es ih =>
    obtain ⟨⟨hack, b, hreq⟩, hes⟩ := List.forall_mem_cons.1 h
    obtain ⟨bs, rfl⟩ := ih hes
    obtain ⟨req, ack⟩ := e
    cases hack
    cases hreq
    exact ⟨b :: bs, rfl⟩

/-- An end with OK is no end with an error. -/
theorem done_ok_ne_raise {ρ : Type} (v : Word) (k : ErrorKind) : Ending.done (ρ := ρ) (Response.ok v) ≠ .done (raise k) := by
  cases k <;> simp [Response.ok, raise, ErrorKind.code]

/-- A WRBITS that ended OK had a valid argument, and appended its whole run. -/
theorem wrBits_ok {u v : Word} {n : Nat} {w : Writer} (h : w.acc.legal) (hd : (wrBits v n w).1 = .done (Response.ok u)) :
    (wrBits v n w).2.out = w.out ++ bitsOf n v.toNat ∧ (wrBits v n w).2.acc.occ = (w.acc.occ + n) % 8 ∧
      ∃ bs, (wrBits v n w).2.port.trace = w.port.trace ++ writeEvents bs ∧ bs.length = (w.acc.occ + n) / 8 := by
  by_cases hok : (1 ≤ n ∧ n ≤ 32) ∧ v.toNat ≤ 2 ^ n - 1
  · obtain ⟨-, es, j, -, hout, hes, ⟨-, rfl, ht, hocc, -⟩ | ⟨hx, -⟩ | ⟨hx, -⟩⟩ := wrBits_cases hok.1 hok.2 h
    · obtain ⟨hmod, hlen⟩ := hocc (by omega)
      obtain ⟨bs, rfl⟩ := eq_writeEvents hes
      rw [List.take_of_length_le (by simp)] at hout
      exact ⟨hout, hmod, bs, ht, by simpa [writeEvents] using hlen⟩
    · exact absurd (hd.symm.trans hx) (done_ok_ne_raise u _)
    · cases hd.symm.trans hx
  · rw [wrBits_invalid hok] at hd
    exact absurd hd.symm (done_ok_ne_raise u _)

theorem wrBits_atRest_of_ok {u v : Word} {n : Nat} {w : Writer} (h : w.acc.legal)
    (hd : (wrBits v n w).1 = .done (Response.ok u)) : (wrBits v n w).2.acc.atRest := by
  obtain ⟨-, hocc, -⟩ := wrBits_ok h hd
  exact ⟨by omega, (wrBits_legal v n h).2⟩

/-- A valid WRBITS one of whose transactions was refused ended there, its accumulator full of the refused byte. -/
theorem WriteOutcome.of_refused {value rem : Nat} {w : Writer} {x : Ending SinkReq × Writer} (h : WriteOutcome value rem w x)
    (hr : ∃ e ∈ x.2.port.trace.drop w.port.trace.length, e.ack = .ioerr) :
    x.1 = .done (raise .ioError) ∧ x.2.acc.occ = 8 ∧
      ∃ bs, x.2.port.trace = w.port.trace ++ writeEvents bs ++ [{ req := .write x.2.acc.buf, ack := .ioerr }] := by
  obtain ⟨-, es, j, -, -, hes, hcases⟩ := h
  have hnotOk : x.2.port.trace ≠ w.port.trace ++ es := by
    intro ht
    obtain ⟨e, he, hack⟩ := hr
    rw [ht, List.drop_left] at he
    rw [(hes e he).1] at hack
    cases hack
  obtain ⟨-, -, ht, -⟩ | ⟨hd, h8, ht⟩ | ⟨-, -, ht⟩ := hcases
  · exact absurd ht hnotOk
  · obtain ⟨bs, rfl⟩ := eq_writeEvents hes
    exact ⟨hd, h8, bs, ht⟩
  · exact absurd ht hnotOk

theorem chunkIn_full {a : Accum} (h8 : a.occ = 8) (rem : Nat) : a.chunkIn rem = 0 := by
  rw [Accum.chunkIn, Accum.free, h8, Nat.sub_self, Nat.min_zero]

/-- A full accumulator takes no bits. -/
theorem append_full {a : Accum} (h8 : a.occ = 8) (value rem : Nat) : a.append value rem = a := by
  simp [Accum.append, chunkIn_full h8, mask]

/-- R73, accepted: the run goes on as it would have begun from an empty accumulator. -/
theorem wrBits_of_full_accepted {v : Word} {n : Nat} (hn : 1 ≤ n ∧ n ≤ 32) (hv : v.toNat ≤ 2 ^ n - 1) {w : Writer}
    {p : SinkPort} (h8 : w.acc.occ = 8) (hp : sinkTransact (.write w.acc.buf) w.port = (some .ok, p)) :
    wrBits v n w = wrBits v n { acc := Accum.empty, port := p } := by
  have hpass : writeLoop 5 v.toNat n w = writeLoop 4 v.toNat n { acc := Accum.empty, port := p } := by
    rw [writeLoop, if_neg (by omega)]
    simp only [append_full h8, chunkIn_full h8, h8, if_true, Nat.sub_zero, hp]
  rw [wrBits_valid hn hv, wrBits_valid hn hv, Config.maxPasses, hpass]
  exact (writeLoop_more_passes v.toNat (by simp) (.inr (by rw [Accum.empty_occ]; omega)) (by decide)).symm

/-- R73, refused: the run ends, and the byte is kept. -/
theorem wrBits_of_full_refused {v : Word} {n : Nat} (hn : 1 ≤ n ∧ n ≤ 32) (hv : v.toNat ≤ 2 ^ n - 1) {w : Writer}
    {p : SinkPort} (h8 : w.acc.occ = 8) (hp : sinkTransact (.write w.acc.buf) w.port = (some .ioerr, p)) :
    wrBits v n w = (.done (raise .ioError), { acc := w.acc, port := p }) := by
  rw [wrBits_valid hn hv, Config.maxPasses, writeLoop, if_neg (by omega)]
  simp only [append_full h8, h8, if_true, hp]

/-! ## Transfers (R76) -/

@[simp] theorem length_elements (b : BufferSpace) (u : UnitId) (a n : Nat) : (b.elements u a n).length = n := by
  simp [BufferSpace.elements]

theorem wrBuf_valid {b : BufferSpace} {o l : Word} (h : o.toNat + l.toNat ≤ 2 ^ 32) (w : Writer) :
    wrBuf b o l w = wrBytes b o.toNat l.toNat w := by
  rw [wrBuf, if_pos ((rangeOk_iff o l).2 h)]

/-- A transfer of length 0 makes no pass of the loop, wherever it is. -/
theorem wrBuf_zero (b : BufferSpace) (o : Word) (w : Writer) : wrBuf b o 0 w = (.done (Response.ok 0), w) := by
  have hrange : o.toNat + (0 : Word).toNat ≤ 2 ^ 32 := o.isLt.le
  rw [wrBuf_valid hrange]
  rfl

/-- A WRBUF that ended OK appended all its elements, and left as many bits pending as before, unless it began full. -/
theorem wrBuf_ok {b : BufferSpace} {o l u : Word} {w : Writer} (h : w.acc.legal)
    (hd : (wrBuf b o l w).1 = .done (Response.ok u)) :
    (wrBuf b o l w).2.out = w.out ++ byteBits (b.elements .bw o.toNat l.toNat) ∧
      (w.acc.occ ≤ 7 → (wrBuf b o l w).2.acc.occ = w.acc.occ) := by
  by_cases hrange : o.toNat + l.toNat ≤ 2 ^ 32
  · rw [wrBuf_valid hrange] at hd ⊢
    obtain ⟨-, j, hout, ⟨-, hj, hocc⟩ | ⟨hx, -⟩ | ⟨hx, -⟩⟩ := wrBytes_cases b o.toNat l.toNat w h
    · rw [List.take_of_length_le (by simpa using hj)] at hout
      exact ⟨hout, hocc⟩
    · exact absurd (hd.symm.trans hx) (done_ok_ne_raise u _)
    · cases hd.symm.trans hx
  · rw [wrBuf, if_neg (by rwa [rangeOk_iff])] at hd
    exact absurd hd.symm (done_ok_ne_raise u _)

/-! ## WCLOSE (R78, R79) -/

theorem length_closeRequests (a : Accum) : (closeRequests a).length = if a.occ > 0 then 3 else 2 := by
  unfold closeRequests
  split <;> rfl

/-- The close comes last. -/
theorem closeRequests_close (a : Accum) (i : Nat) (h : (closeRequests a)[i]? = some .close) :
    i + 1 = (closeRequests a).length := by
  unfold closeRequests at *
  split at h <;> rcases i with _ | _ | _ | i <;> simp_all

theorem wClose_completes {w : Writer} (hw : w.port.willing 3) : (wClose w).1 = .done (Response.ok 0) := by
  refine closeSteps_completes _ w (willing_mono hw ?_) (closeRequests_close w.acc)
  rw [length_closeRequests]
  split <;> decide

theorem zip_replicate_length {α β : Type} (xs : List α) (y : β) :
    xs.zip (List.replicate xs.length y) = xs.map fun x => (x, y) := by
  induction xs with
  | nil => rfl
  | cons x xs ih => rw [List.length_cons, List.replicate_succ, List.zip_cons_cons, ih, List.map_cons]

/-- A WCLOSE that ended OK had all its requests accepted. -/
theorem wClose_trace_of_ok {w : Writer} (hd : (wClose w).1 = .done (Response.ok 0)) :
    (wClose w).2.port.trace = w.port.trace ++ (closeRequests w.acc).map fun r => { req := r, ack := .ok } := by
  obtain ⟨-, acks, ht, ⟨hx, hlen⟩ | ⟨q, hq, -⟩⟩ := closeSteps_cases (closeRequests w.acc) false w
  · have hno : Ack.ioerr ∉ acks := by
      intro hm
      rw [if_pos (.inr hm)] at hx
      exact absurd (hd.symm.trans hx) (done_ok_ne_raise 0 _)
    have hall : acks = List.replicate (closeRequests w.acc).length .ok :=
      List.eq_replicate_iff.2 ⟨hlen, fun a ha => by cases a; exacts [rfl, absurd ha hno]⟩
    rw [wClose, ht, hall, zip_replicate_length, List.map_map]
    rfl
  · cases hd.symm.trans hq

/-- The numeral of a number whose low bits are zero. -/
theorem bitsOf_eq_replicate {n v : Nat} (h : ∀ j, j < n → v.testBit j = false) : bitsOf n v = List.replicate n false := by
  induction n with
  | zero => rfl
  | succ n ih => rw [bitsOf, h n (Nat.lt_succ_self n), ih fun j hj => h j (Nat.lt_succ_of_lt hj), List.replicate_succ]

/-- The byte of a legal accumulator is its valid bits above zeros. -/
theorem bitsOf_buf {a : Accum} (h : a.legal) : bitsOf 8 a.buf.toNat = a.pending ++ List.replicate (8 - a.occ) false := by
  have hzero : bitsOf (8 - a.occ) a.buf.toNat = List.replicate (8 - a.occ) false :=
    bitsOf_eq_replicate fun j hj => by rw [BitVec.testBit_toNat]; exact h.2 j hj
  have hsplit := bitsOf_add a.occ (8 - a.occ) a.buf.toNat
  rwa [Nat.add_sub_cancel' h.1, hzero] at hsplit

/-- The byte WCLOSE writes, if it writes one, is the pending bits and the padding (R78). -/
theorem closeRequests_accepted {a : Accum} (h : a.legal) :
    byteBits (((closeRequests a).map fun r => SinkEvent.mk r .ok).filterMap SinkEvent.accepted) =
      a.pending ++ List.replicate ((8 - a.occ % 8) % 8) false := by
  have h8 := h.1
  unfold closeRequests
  split
  · have hpad : (8 - a.occ % 8) % 8 = 8 - a.occ := by omega
    rw [hpad, ← bitsOf_buf h]
    exact List.append_nil _
  · have h0 : a.occ = 0 := by omega
    rw [pending_of_occ_zero h0, h0]
    rfl

/-- A WCLOSE that ended OK delivered all bits written and the padding. -/
theorem wClose_delivers {w : Writer} (h : w.acc.legal) (hd : (wClose w).1 = .done (Response.ok 0)) :
    byteBits (wClose w).2.port.accepted = w.out ++ List.replicate ((8 - w.acc.occ % 8) % 8) false := by
  rw [accepted_append (wClose_trace_of_ok hd), byteBits_append, closeRequests_accepted h, Writer.out, List.append_assoc]

/-! ## Sequences of writing commands (R81) -/

/-- The commands of R81: those that write, and WFLUSH. -/
abbrev writesOrFlushes (i : Instr) : Prop :=
  (∃ n, i = .wrbits n) ∨ i = .wrbyte ∨ i = .wrbuf ∨ i = .wflush

theorem unit_of_writesOrFlushes {i : Instr} (h : writesOrFlushes i) : i.unit = .bw := by
  obtain ⟨n, rfl⟩ | rfl | rfl | rfl := h <;> rfl

theorem load_of_bw {c : Call} (hu : c.instr.unit = .bw) (s : State) :
    c.load s = s.withRegs .bw { s.bw.regs with arg0 := c.arg0, arg1 := c.arg1, cmd := encode c.instr } := by
  rw [Call.load, hu]
  rfl

/-- One command of R81 that ended OK appended its contribution, and the accumulator is at rest again. -/
theorem writerRun_ok {c : Call} (hc : writesOrFlushes c.instr) {regs : HostRegs} (h0 : regs.arg0 = c.arg0)
    (h1 : regs.arg1 = c.arg1) {b : BufferSpace} {w : Writer} (h : w.acc.atRest) {v : Word}
    (hd : (writerRun c.instr regs b w).1 = .done (Response.ok v)) :
    (writerRun c.instr regs b w).2.out = w.out ++ c.contribution b ∧ (writerRun c.instr regs b w).2.acc.atRest := by
  obtain ⟨i, arg0, arg1⟩ := c
  obtain rfl : regs.arg0 = arg0 := h0
  obtain rfl : regs.arg1 = arg1 := h1
  obtain ⟨n, rfl⟩ | rfl | rfl | rfl : writesOrFlushes i := hc
  · exact ⟨(wrBits_ok h.legal hd).1, wrBits_atRest_of_ok h.legal hd⟩
  · have hout := (wrBits_ok h.legal hd).1
    rw [(byte_fits regs).1] at hout
    exact ⟨hout, wrBits_atRest_of_ok h.legal hd⟩
  · obtain ⟨hout, hocc⟩ := wrBuf_ok h.legal hd
    exact ⟨hout, (hocc h.1).trans_le h.1, (wrBuf_legal _ _ _ h.legal).2⟩
  · exact ⟨(List.append_nil _).symm, h⟩

/-- Commands of R81 that all end OK append their contributions in order. -/
theorem runsOk_appends {cs : List Call} {s t : State} (hcs : ∀ c ∈ cs, writesOrFlushes c.instr) (h : s.bw.acc.atRest)
    (hrun : RunsOk cs s t) :
    t.outBits = s.outBits ++ cs.flatMap (Call.contribution s.buffer) ∧ t.bw.acc.atRest := by
  induction cs generalizing s with
  | nil =>
    obtain rfl : s = t := hrun
    exact ⟨(List.append_nil _).symm, h⟩
  | cons c cs ih =>
    obtain ⟨hc, hcs⟩ := List.forall_mem_cons.1 hcs
    obtain ⟨v, s', hexec, hok, hrest⟩ := hrun
    have hu := unit_of_writesOrFlushes hc
    rw [load_of_bw hu, exec_of_bw hu] at hexec
    cases hexec
    rw [hu, finishBw_answered_iff] at hok
    obtain ⟨hout, hrest'⟩ := writerRun_ok hc rfl rfl h hok
    obtain ⟨houts, hend⟩ := ih hcs hrest' hrest
    refine ⟨?_, hend⟩
    rw [houts, finishBw_outBits, hout, List.flatMap_cons, List.append_assoc]
    rfl

/-- Bits whose whole bytes were accepted, fewer than eight of them pending, are cut at the last whole byte. -/
theorem out_split {w : Writer} (h : w.acc.occ ≤ 7) :
    byteBits w.port.accepted = w.out.take (8 * w.port.accepted.length) ∧
      w.port.accepted.length = w.out.length / 8 ∧ w.acc.occ = w.out.length % 8 ∧
      w.acc.pending = w.out.drop (8 * w.port.accepted.length) := by
  have hlen : w.out.length = 8 * w.port.accepted.length + w.acc.occ := by simp [Writer.out]
  refine ⟨?_, by omega, by omega, ?_⟩
  · rw [Writer.out, List.take_left' (length_byteBits _)]
  · rw [Writer.out, List.drop_left' (length_byteBits _)]

/-! ## The obligations of the family -/

/-- Settles O34: every command appends its contribution and leaves fewer than eight bits, so the accepted bytes are all the
whole bytes; WCLOSE completes the last one. -/
theorem writerStreamLaw : Obligations.WriterStreamLaw := by
  intro cs s t hcs hbw hacc hrun
  have hacc0 : s.bw.acc = Accum.empty := congrArg BwUnit.acc hbw
  have hnone : s.outBits = [] := by
    rw [State.outBits, Writer.out, State.writer, hacc, hacc0]
    rfl
  obtain ⟨hout, hrest⟩ := runsOk_appends hcs (hacc0 ▸ Accum.empty_atRest) hrun
  rw [hnone, List.nil_append] at hout
  obtain ⟨htake, hlen, hocc, hdrop⟩ := out_split (w := t.writer) hrest.1
  rw [← hout]
  refine ⟨⟨htake, hlen, hocc, hdrop, hrest.2⟩, fun t' hexec hok => ?_⟩
  cases hexec
  rw [finishBw_answered_iff] at hok
  have hpad := wClose_delivers (w := t.writer) hrest.legal hok
  rw [hocc, Nat.mod_mod] at hpad
  exact hpad

/-- Settles O23: a willing sink lets the run end OK, and a run that ended OK appended all its bits. -/
theorem wrbitsAppendsTheRun : Obligations.WrbitsAppendsTheRun := by
  intro n s h h1 h32 hv hw
  obtain ⟨hd, -⟩ := wrBits_completes (w := s.writer) ⟨h1, h32⟩ hv h hw
  obtain ⟨hout, hocc, bs, ht, hlen⟩ := wrBits_ok h hd
  exact ⟨_, bs, rfl, (finishBw_answered_iff ..).2 hd, hout, ht, hlen, hocc, wrBits_legal _ n h⟩

/-- Settles O24: of the ends of a run, only the refused one has an answer IOERR in its trace. -/
theorem wrbitsRefusedByteIsKept : Obligations.WrbitsRefusedByteIsKept := by
  intro n s t h hgood hexec hrefused
  cases hexec
  obtain ⟨hn, hv⟩ := (not_badArgument_wrbits_iff n s).1 hgood
  have hcases := wrBits_cases (w := s.writer) hn hv h
  obtain ⟨hd, h8, hlast⟩ := hcases.of_refused hrefused
  obtain ⟨-, -, j, hj, hout, -⟩ := hcases
  exact ⟨(finishBw_answered_iff ..).2 hd, h8, hlast, j, hj, hout⟩

/-- Settles O25: the first pass of a run from a full accumulator is the presentation of its byte. -/
theorem fullAccumulatorIsPresentedAgain : Obligations.FullAccumulatorIsPresentedAgain := by
  intro n s b p hfree hacc
  have h8 : s.writer.acc.occ = 8 := congrArg Accum.occ hacc
  have hbuf : s.writer.acc.buf = b := congrArg Accum.buf hacc
  refine ⟨fun hbad => ?_, fun hgood hp => ?_, fun hgood hp => ?_⟩
  · have hinv := wrBits_invalid (mt (not_badArgument_wrbits_iff n s).2 (not_not.2 hbad)) s.writer
    rw [exec, execWrbits, hinv]
    exact congrArg _ (finishBw_done_eq_respond hfree _ s.sink)
  · obtain ⟨hn, hv⟩ := (not_badArgument_wrbits_iff n s).1 hgood
    rw [exec, execWrbits, wrBits_of_full_accepted hn hv h8 (hbuf ▸ hp)]
    rfl
  · obtain ⟨hn, hv⟩ := (not_badArgument_wrbits_iff n s).1 hgood
    rw [exec, execWrbits, wrBits_of_full_refused hn hv h8 (hbuf ▸ hp)]
    exact congrArg _ (finishBw_done_eq_respond hfree _ p)

/-- Settles O28: an eight-bit run from fewer than eight bits completes exactly one byte. -/
theorem wrbyteAppendsOneByte : Obligations.WrbyteAppendsOneByte := by
  intro s h hw
  have h7 := h.1
  have hone : (s.bw.acc.occ + 8) / 8 = 1 := by omega
  obtain ⟨hvalue, hfits⟩ := byte_fits s.bw.regs
  obtain ⟨hd, -⟩ := wrBits_completes (w := s.writer) (n := 8) (by decide) hfits h.legal (hone ▸ hw)
  obtain ⟨hout, hocc, bs, ht, hlen⟩ := wrBits_ok h.legal hd
  obtain ⟨b, rfl⟩ := List.length_eq_one_iff.1 (hlen.trans hone)
  rw [hvalue] at hout
  exact ⟨_, b, rfl, (finishBw_answered_iff ..).2 hd, hout, ht, hocc.trans (by simp only [State.writer]; omega)⟩

/-- Settles O29: no element, no pass of the loop; otherwise a willing sink lets the loop end OK, and a loop that ended OK
appended every element. -/
theorem wrbufAppendsItsElements : Obligations.WrbufAppendsItsElements := by
  refine fun s => ⟨fun hzero hfree => ?_, fun h hrange hw => ?_⟩
  · rw [exec, execWrbuf, HostRegs.length, hzero, wrBuf_zero]
    exact congrArg _ (finishBw_done_eq_respond hfree _ s.sink)
  · have h8 := h.1
    have hd : (wrBuf s.buffer s.bw.regs.offset s.bw.regs.length s.writer).1 = .done (Response.ok 0) := by
      rw [HostRegs.offset, HostRegs.length, wrBuf_valid hrange]
      exact wrBytes_completes _ _ _ s.writer h (willing_mono hw (by simp only [State.writer]; omega))
    obtain ⟨hout, hocc⟩ := wrBuf_ok h hd
    exact ⟨_, rfl, (finishBw_answered_iff ..).2 hd, hout, hocc⟩

/-- Settles O32: WCLOSE is the list of its requests, taken to its end or to the first that is never answered. -/
theorem wcloseAttemptsEveryStep : Obligations.WcloseAttemptsEveryStep := by
  intro s t hexec
  cases hexec
  obtain ⟨hacc, acks, ht, hend⟩ := closeSteps_cases (closeRequests s.writer.acc) false s.writer
  refine ⟨hacc, acks, ht, ?_⟩
  obtain ⟨hd, hlen⟩ | ⟨q, hq, hnext⟩ := hend
  · refine ⟨fun _ => ⟨hlen.trans (length_closeRequests _), (finishBw_answered_iff ..).2 ?_⟩, fun r hr => ?_⟩
    · rw [wClose, hd]
      by_cases hm : Ack.ioerr ∈ acks
      · rw [if_pos hm, if_pos (.inr hm)]
        rfl
      · rw [if_neg hm, if_neg (by simpa using hm)]
        rfl
    · rw [finishBw_awaiting, wClose, hd] at hr
      cases hr
  · refine ⟨fun hfree => ?_, fun r hr => ?_⟩
    · rw [State.blocked, finishBw_awaiting, wClose, hq] at hfree
      cases hfree
    · rw [finishBw_awaiting, wClose, hq] at hr
      cases hr
      exact hnext

/-- Settles O33: a willing sink lets WCLOSE end OK, and a WCLOSE that ended OK delivered every bit and the padding. -/
theorem wcloseDeliversEveryBitPadded : Obligations.WcloseDeliversEveryBitPadded := by
  intro s h hw
  have hd := wClose_completes (w := s.writer) hw
  exact ⟨_, rfl, (finishBw_answered_iff ..).2 hd, wClose_delivers (w := s.writer) h hd⟩

/-- Settles O27: both commands are one run, and its end does not look at ARG0. -/
theorem wrbyteIsAnEightBitRun : Obligations.WrbyteIsAnEightBitRun :=
  fun s => ⟨_, rfl, congrArg Host.Outcome.next (finishBw_withArg0 s _ (wrByte s.bw.regs.byte s.writer)).symm⟩

/-- Settles O31: WFLUSH ends with the writer it began with. -/
theorem wflushDoesNothing : Obligations.WflushDoesNothing :=
  fun s hfree => congrArg Host.Outcome.next (finishBw_done_eq_respond hfree (Response.ok 0) s.sink)

end Sys2Proof.Machine

/-! SUPPORT. The BitReader family: what a run, an element loop and a SKIP take from the source, what MARK and RESET keep, and
the stream and round-trip laws that follow (41_bitreader.md R90 to R103). -/

namespace Sys2Proof.Machine

/-! ## A BR command's end, read off its state (30_encoding.md R55) -/

theorem finishBr_answered_iff (s : State) (x : Ending SourceReq × Reader) (c : Code) (v : Word) :
    (s.finishBr x).answered .br c v ↔ x.1 = .done { code := c, value := v } := by
  obtain ⟨r | q, w⟩ := x
  · obtain ⟨d, u⟩ := r
    simp only [State.answered, State.blocked, finishBr_awaiting, regs_br, finishBr_regs, done_pending, done_report,
      report_status, report_result, Option.isSome_none, true_and, Ending.done.injEq, Response.mk.injEq]
    exact and_congr_left' ⟨statusWord_inj, congrArg _⟩
  · simp [State.answered, State.blocked]

/-- What a command makes of the snapshot and the buffer space is no part of its response. -/
theorem finishReaderRun_answered_iff (s : State) (snap : Accum) (x : Ending SourceReq × Reader × BufferSpace) (c : Code)
    (v : Word) : (s.finishReaderRun snap x).answered .br c v ↔ x.1 = .done { code := c, value := v } :=
  finishBr_answered_iff { s with br := { s.br with snap := snap } } (x.1, x.2.1) c v

/-- A command of a free unit that ends with a response, its accumulator and port written back. -/
theorem finishBr_done_eq_respond {s : State} (hb : s.blocked .br = false) (x : Response) (r : Reader) :
    s.finishBr (.done x, r) =
      ({ s with br := { s.br with acc := r.acc }, source := r.port } : State).respond .br (statusWord x.code) x.value := by
  have ha : s.br.awaiting = none := Option.isNone_iff_eq_none.1 (Option.isSome_eq_false_iff.1 hb)
  simp only [State.finishBr, State.respond, State.withRegs, State.regs, done_pending, ha]
  rfl

/-! ## Sources that stop (R93, R94) -/

/-- The response `x` that RDBITS gives when a refill is answered `a`, no byte. -/
abbrev ReadAnswer.Raises (a : ReadAnswer) (x : Response) : Prop :=
  (a = .eod ∧ x = raise .endOfStream) ∨ (a = .ioerr ∧ x = raise .ioError)

/-- A source of which `Q bs` holds answers its next reads with the bytes `bs`, and the one after them with `a`. -/
structure StopsWith (Q : List Byte → SourcePort → Prop) (a : ReadAnswer) : Prop where
  byte : ∀ b bs p, Q (b :: bs) p → ∃ q, sourceRead p = (some (.byte b), q) ∧ Q bs q
  last : ∀ p, Q [] p → ∃ q, sourceRead p = (some a, q)

theorem suppliesThenEnds_stops : StopsWith (fun bs p => p.suppliesThenEnds bs) .eod :=
  ⟨fun b bs _ h => (sourceRead_suppliesThenEnds h).1 b bs rfl, fun _ h => (sourceRead_suppliesThenEnds h).2 rfl⟩

theorem suppliesThenFails_stops : StopsWith (fun bs p => p.suppliesThenFails bs) .ioerr :=
  ⟨fun b bs _ h => (sourceRead_suppliesThenFails h).1 b bs rfl, fun _ h => (sourceRead_suppliesThenFails h).2 rfl⟩

theorem eod_raises : ReadAnswer.Raises .eod (raise .endOfStream) := .inl ⟨rfl, rfl⟩

theorem ioerr_raises : ReadAnswer.Raises .ioerr (raise .ioError) := .inr ⟨rfl, rfl⟩

/-! ## Runs (R90 to R95) -/

theorem readEvents_injective : Function.Injective readEvents :=
  List.map_injective_iff.2 fun _ _ h => by simpa using h

/-- An RDBITS that ended OK had a valid count, and returned the next bits of the stream. -/
theorem rdBits_ok {n : Nat} {r : Reader} (h : r.acc.atRest) {v : Word} (hd : (rdBits n r).1 = .done (Response.ok v)) :
    ∃ bs : List Byte, (rdBits n r).2.port.trace = r.port.trace ++ readEvents bs ∧ v.toNat < 2 ^ n ∧
      r.acc.pending ++ byteBits bs = bitsOf n v.toNat ++ (rdBits n r).2.acc.pending := by
  by_cases hn : 1 ≤ n ∧ n ≤ 32
  · obtain ⟨bs, -, hrest⟩ := rdBits_value hn h hd
    exact ⟨bs, hrest⟩
  · rw [rdBits_invalid hn] at hd
    exact absurd hd.symm (done_ok_ne_raise v _)

/-- RDBITS on a source that yields enough bytes ends OK, and reads no byte that it does not need. -/
theorem rdBits_fed {n : Nat} (hn : 1 ≤ n ∧ n ≤ 32) {r : Reader} (h : r.acc.atRest) {bs : List Byte}
    (hs : r.port.supplies bs) (hlen : n ≤ r.acc.occ + 8 * bs.length) :
    ∃ v, (rdBits n r).1 = .done (Response.ok v) ∧ v.toNat < 2 ^ n ∧
      r.acc.pending ++ byteBits (bs.take ((n - r.acc.occ + 7) / 8)) = bitsOf n v.toNat ++ (rdBits n r).2.acc.pending ∧
      (rdBits n r).2.port.trace = r.port.trace ++ readEvents (bs.take ((n - r.acc.occ + 7) / 8)) ∧
      (rdBits n r).2.port.supplies (bs.drop ((n - r.acc.occ + 7) / 8)) := by
  obtain ⟨v, hd, ht, hrest⟩ := readLoop_fed (fun bs p => p.supplies bs) (fun _ _ _ => sourceRead_supplies)
    Config.maxPasses n 0 r bs h.1 (readFuel hn.2) hs hlen
  rw [← rdBits_valid hn] at hd ht hrest
  obtain ⟨cs, ht', hlt, hbits⟩ := rdBits_ok h hd
  obtain rfl := readEvents_injective (List.append_cancel_left (ht'.symm.trans ht))
  exact ⟨v, hd, hlt, hbits, ht, hrest⟩

/-- RDBITS on a source that stops too early: the bits it took are lost. -/
theorem rdBits_starved {Q : List Byte → SourcePort → Prop} {a : ReadAnswer} {x : Response} (hax : a.Raises x)
    (hQ : StopsWith Q a) {n : Nat} (hn : 1 ≤ n ∧ n ≤ 32) {r : Reader} (h : r.acc.atRest) {bs : List Byte} (hs : Q bs r.port)
    (hlt : r.acc.occ + 8 * bs.length < n) :
    (rdBits n r).1 = .done x ∧ (rdBits n r).2.acc = Accum.empty ∧
      (rdBits n r).2.port.trace = r.port.trace ++ readEvents bs ++ [.read a] := by
  rw [rdBits_valid hn]
  exact readLoop_starved Q a x hax hQ.byte hQ.last _ n 0 r bs h (readFuel hn.2) hs hlt

/-- R95: RDBYTE is RDBITS of eight bits but for the response `(END_OF_STREAM, 0)`. -/
theorem rdByte_eq_rdBits {r : Reader} (h : (rdBits 8 r).1 ≠ .done (raise .endOfStream)) : rdByte r = rdBits 8 r := by
  have hlegal := rdBits_ending_legal 8 r
  rw [rdByte_eq]
  generalize rdBits 8 r = x at *
  obtain ⟨⟨c, v⟩ | q, r'⟩ := x
  · have hc : c ≠ .endOfStream := by
      rintro rfl
      obtain rfl : v = 0 := hlegal (by simp)
      exact h rfl
    exact congrArg (fun y => (Ending.done y, r')) (if_neg hc)
  · rfl

theorem rdByte_of_endOfStream {r : Reader} (h : (rdBits 8 r).1 = .done (raise .endOfStream)) :
    rdByte r = (.done (Response.ok Config.sentinel), (rdBits 8 r).2) := by
  rw [rdByte_eq]
  generalize rdBits 8 r = y at *
  obtain ⟨e, r'⟩ := y
  obtain rfl : e = _ := h
  rfl

/-- An RDBYTE that ended OK without the sentinel is an eight-bit run that ended so. -/
theorem rdBits_of_rdByte_ok {r : Reader} {v : Word} (hd : (rdByte r).1 = .done (Response.ok v)) (hv : v ≠ Config.sentinel) :
    (rdBits 8 r).1 = .done (Response.ok v) := by
  by_cases heos : (rdBits 8 r).1 = .done (raise .endOfStream)
  · rw [rdByte_of_endOfStream heos] at hd
    injection hd with hd
    exact absurd (congrArg Response.value hd).symm hv
  · rwa [rdByte_eq_rdBits heos] at hd

/-! ## Transfers and skips on a source that stops (R96, R97, R101) -/

theorem rdBuf_valid {o l : Word} (h : o.toNat + l.toNat ≤ 2 ^ 32) (r : Reader) (b : BufferSpace) :
    rdBuf o l r b = fillLoop o.toNat l.toNat 0 r b := by
  rw [rdBuf, if_pos ((rangeOk_iff o l).2 h)]

/-- RDBUF's loop when the next read is answered `a`: it stores no more, and the end of data is no error. -/
theorem fillLoop_starved {a : ReadAnswer} {x : Response} (hax : a.Raises x) (offset more i : Nat) {r : Reader}
    (b : BufferSpace) (h : r.acc.atRest) (hs : ∃ q, sourceRead r.port = (some a, q)) :
    fillLoop offset (more + 1) i r b =
      (.done (if x.code = .endOfStream then Response.ok (if i = 0 then Config.sentinel else BitVec.ofNat 32 i) else x),
        (rdByte r).2, b) := by
  obtain ⟨hd, -⟩ := rdByte_starved a x hax h hs
  rw [fillLoop]
  generalize rdByte r = y at *
  obtain ⟨e, r'⟩ := y
  obtain rfl : e = _ := hd
  obtain ⟨-, rfl⟩ | ⟨-, rfl⟩ := hax <;> rfl

/-- SKIP's loop when the next read is answered `a`. -/
theorem skipLoop_starved {a : ReadAnswer} {x : Response} (hax : a.Raises x) (more cnt : Nat) {r : Reader}
    (h : r.acc.atRest) (hs : ∃ q, sourceRead r.port = (some a, q)) :
    skipLoop (more + 1) cnt r =
      (.done (if x.code = .endOfStream then Response.ok (BitVec.ofNat 32 cnt) else x), (rdByte r).2) := by
  obtain ⟨hd, -⟩ := rdByte_starved a x hax h hs
  rw [skipLoop]
  generalize rdByte r = y at *
  obtain ⟨e, r'⟩ := y
  obtain rfl : e = _ := hd
  obtain ⟨-, rfl⟩ | ⟨-, rfl⟩ := hax <;> rfl

/-- RDBUF on a source that stops after fewer bytes than it asks for: they are stored, and the bits held are lost. -/
theorem rdBuf_short {Q : List Byte → SourcePort → Prop} {a : ReadAnswer} {x : Response} (hax : a.Raises x)
    (hQ : StopsWith Q a) {o l : Word} {bs : List Byte} {r : Reader} {b : BufferSpace} (h : r.acc.atRest) (hb : b.wf)
    (hrange : o.toNat + l.toNat ≤ 2 ^ 32) (hlt : bs.length < l.toNat) (hs : Q bs r.port) :
    (rdBuf o l r b).1 = .done (if x.code = .endOfStream then
        Response.ok (if bs.length = 0 then Config.sentinel else BitVec.ofNat 32 bs.length) else x) ∧
      (∃ lost, r.acc.pending ++ byteBits bs =
        byteBits ((rdBuf o l r b).2.2.elements .br o.toNat bs.length) ++ lost) ∧
      (rdBuf o l r b).2.1.acc = Accum.empty ∧
      (rdBuf o l r b).2.1.port.trace = r.port.trace ++ readEvents bs ++ [.read a] ∧
      ∀ (u : UnitId) (c : Nat), (c < o.toNat ∨ o.toNat + bs.length ≤ c) → (rdBuf o l r b).2.2.read u c = b.read u c := by
  obtain ⟨more, hl⟩ : ∃ more, l.toNat = bs.length + (more + 1) := ⟨l.toNat - bs.length - 1, by omega⟩
  obtain ⟨r₁, b', data, hloop, hs₁, hrest, -, -, ht, rfl, hbits, hframe⟩ :=
    fillLoop_fed Q hQ.byte o.toNat (more + 1) 0 bs r b h hb (by omega) hs
  obtain ⟨-, hacc, ht'⟩ := rdByte_starved a x hax hrest (hQ.last _ hs₁)
  rw [rdBuf_valid hrange, hl, hloop, Nat.zero_add, fillLoop_starved hax _ _ _ _ hrest (hQ.last _ hs₁)]
  exact ⟨rfl, ⟨_, hbits⟩, hacc, by rw [ht', ht], hframe⟩

/-- SKIP's loop on a source that stops after fewer bytes than it asks for. -/
theorem skipLoop_short {Q : List Byte → SourcePort → Prop} {a : ReadAnswer} {x : Response} (hax : a.Raises x)
    (hQ : StopsWith Q a) {n : Nat} {bs : List Byte} {r : Reader} (h : r.acc.atRest) (hlt : bs.length < n) (hs : Q bs r.port) :
    (skipLoop n 0 r).1 =
        .done (if x.code = .endOfStream then Response.ok (BitVec.ofNat 32 bs.length) else x) ∧
      (skipLoop n 0 r).2.acc = Accum.empty ∧
      (skipLoop n 0 r).2.port.trace = r.port.trace ++ readEvents bs ++ [.read a] := by
  obtain ⟨more, rfl⟩ : ∃ more, n = bs.length + (more + 1) := ⟨n - bs.length - 1, by omega⟩
  obtain ⟨r₁, -, hloop, hs₁, hrest, -, ht, -, -⟩ := skipLoop_fed Q hQ.byte (more + 1) 0 bs r h hs
  obtain ⟨-, hacc, ht'⟩ := rdByte_starved a x hax hrest (hQ.last _ hs₁)
  rw [hloop, Nat.zero_add, skipLoop_starved hax _ _ hrest (hQ.last _ hs₁)]
  exact ⟨rfl, hacc, by rw [ht', ht]⟩

/-! ## The reference source between MARK and RESET (R99, 20_memory.md R36) -/

/-- The source of `p` is the reference source with the bytes of `k`, marked where `k` stands. -/
def SourcePort.MarkedAt (k : RefSource) (p : SourcePort) : Prop :=
  ∃ pos, p.device = .reference { k with pos := pos, mark := some k.pos }

/-- `p` is marked so, and the source of `q` is the same but perhaps for its mark: it answers every read as that of `p`. -/
def InStep (k : RefSource) (p q : SourcePort) : Prop :=
  ∃ pos m, p.device = .reference { k with pos := pos, mark := some k.pos } ∧
    q.device = .reference { k with pos := pos, mark := m }

section inStep
variable {k : RefSource} {p q : SourcePort}

theorem SourcePort.MarkedAt.inStep (h : p.MarkedAt k) : InStep k p p := by
  obtain ⟨pos, hp⟩ := h
  exact ⟨pos, _, hp, hp⟩

theorem InStep.markedAt (h : InStep k p q) : p.MarkedAt k := by
  obtain ⟨pos, -, hp, -⟩ := h
  exact ⟨pos, hp⟩

theorem sourceRead_inStep (h : InStep k p q) :
    ∃ a p' q', sourceRead p = (some a, p') ∧ sourceRead q = (some a, q') ∧ InStep k p' q' := by
  obtain ⟨pos, m, hp, hq⟩ := h
  simp only [sourceRead, SourceDevice.read, hp, hq, RefSource.read]
  cases k.bytes[pos]? with
  | some b => exact ⟨_, _, _, rfl, rfl, pos + 1, m, rfl, rfl⟩
  | none => exact ⟨_, _, _, rfl, rfl, pos, m, rfl, rfl⟩

theorem refill_inStep (a : Accum) (h : InStep k p q) :
    ∃ f a' p' q', refill ⟨a, p⟩ = (f, ⟨a', p'⟩) ∧ refill ⟨a, q⟩ = (f, ⟨a', q'⟩) ∧ InStep k p' q' ∧
      (f = .ready ∨ ∃ x, f = .ended (.done x)) := by
  by_cases hocc : a.occ = 0
  · obtain ⟨b, p', q', hp, hq, h'⟩ := sourceRead_inStep h
    simp only [refill, if_pos hocc, hp, hq]
    cases b with
    | byte => exact ⟨_, _, p', q', rfl, rfl, h', .inl rfl⟩
    | ioerr | eod => exact ⟨_, _, p', q', rfl, rfl, h', .inr ⟨_, rfl⟩⟩
  · exact ⟨.ready, a, p, q, if_neg hocc, if_neg hocc, h, .inl rfl⟩

theorem readLoop_inStep (fuel rem result : Nat) (a : Accum) (h : InStep k p q) :
    ∃ x a' p' q', readLoop fuel rem result ⟨a, p⟩ = (.done x, ⟨a', p'⟩) ∧
      readLoop fuel rem result ⟨a, q⟩ = (.done x, ⟨a', q'⟩) ∧ InStep k p' q' := by
  induction fuel generalizing rem result a p q with
  | zero => exact ⟨_, a, p, q, rfl, rfl, h⟩
  | succ fuel ih =>
    unfold readLoop
    split
    · exact ⟨_, a, p, q, rfl, rfl, h⟩
    · obtain ⟨f, a', p', q', hp, hq, h', rfl | ⟨x, rfl⟩⟩ := refill_inStep a h <;> rw [hp, hq]
      · exact ih _ _ _ h'
      · exact ⟨x, a', p', q', rfl, rfl, h'⟩

/-- RDBITS on two sources in step always completes, with the same response and accumulator. -/
theorem rdBits_inStep (n : Nat) (a : Accum) (h : InStep k p q) :
    ∃ x a' p' q', rdBits n ⟨a, p⟩ = (.done x, ⟨a', p'⟩) ∧ rdBits n ⟨a, q⟩ = (.done x, ⟨a', q'⟩) ∧ InStep k p' q' := by
  unfold rdBits
  split
  · exact readLoop_inStep _ _ _ a h
  · exact ⟨_, a, p, q, rfl, rfl, h⟩

end inStep

section markedAt
variable {k : RefSource} {r : Reader}

theorem rdBits_markedAt (n : Nat) (h : r.port.MarkedAt k) : (rdBits n r).2.port.MarkedAt k := by
  obtain ⟨_, _, _, _, hx, -, h'⟩ := rdBits_inStep n r.acc h.inStep
  rw [hx]
  exact h'.markedAt

theorem rdByte_markedAt (h : r.port.MarkedAt k) : (rdByte r).2.port.MarkedAt k := by
  rw [rdByte_snd]; exact rdBits_markedAt 8 h

theorem fillLoop_markedAt (offset left i : Nat) (b : BufferSpace) (h : r.port.MarkedAt k) :
    (fillLoop offset left i r b).2.1.port.MarkedAt k := by
  induction left generalizing i r b with
  | zero => exact h
  | succ left ih =>
    have h' := rdByte_markedAt h
    rw [fillLoop]
    generalize rdByte r = y at *
    obtain ⟨x | q, r'⟩ := y
    · dsimp only
      split
      · exact h'
      · split
        · exact h'
        · exact ih _ _ h'
    · exact h'

theorem rdBuf_markedAt (o l : Word) (b : BufferSpace) (h : r.port.MarkedAt k) : (rdBuf o l r b).2.1.port.MarkedAt k := by
  unfold rdBuf
  split
  · exact fillLoop_markedAt _ _ _ b h
  · exact h

theorem skipLoop_markedAt (left cnt : Nat) (h : r.port.MarkedAt k) : (skipLoop left cnt r).2.port.MarkedAt k := by
  induction left generalizing cnt r with
  | zero => exact h
  | succ left ih =>
    have h' := rdByte_markedAt h
    rw [skipLoop]
    generalize rdByte r = y at *
    obtain ⟨x | q, r'⟩ := y
    · dsimp only
      split
      · exact h'
      · split
        · exact h'
        · exact ih _ h'
    · exact h'

/-- MARK marks the reference source where it stands. -/
theorem markSource_markedAt (l : Word) (h : r.port.device = .reference k) : (markSource l r).2.port.MarkedAt k := by
  rw [markSource, sourceMark, h]
  exact ⟨k.pos, rfl⟩

/-- RESET of a marked reference source is accepted: it takes the source to its mark and the accumulator from the snapshot. -/
theorem resetSource_of_markedAt (snap : Accum) (h : r.port.MarkedAt k) :
    ∃ p, resetSource snap r = (.done (Response.ok 0), { acc := snap, port := p }) ∧
      p.device = .reference { k with mark := some k.pos } := by
  obtain ⟨pos, hp⟩ := h
  rw [resetSource, sourceReset, hp]
  exact ⟨_, rfl, rfl⟩

/-- No BR command but MARK moves the mark. -/
theorem readerRun_markedAt {i : Instr} (hi : i ≠ .mark) (regs : HostRegs) (snap : Accum) (b : BufferSpace)
    (h : r.port.MarkedAt k) : (readerRun i regs snap r b).2.1.port.MarkedAt k := by
  cases i with
  | rdbits n => exact rdBits_markedAt n h
  | rdbyte => exact rdByte_markedAt h
  | rdbuf => exact rdBuf_markedAt _ _ b h
  | mark => exact absurd rfl hi
  | reset =>
    obtain ⟨p, hx, hp⟩ := resetSource_of_markedAt snap h
    rw [readerRun, hx]
    exact ⟨k.pos, hp⟩
  | skip => exact skipLoop_markedAt _ 0 h
  | wrbits | wrbyte | wrbuf | wflush | wclose => exact h

end markedAt

/-! ## Sequences of reading commands (R99, R102, R103) -/

theorem load_of_br {c : Call} (hu : c.instr.unit = .br) (s : State) :
    c.load s = s.withRegs .br { s.br.regs with arg0 := c.arg0, arg1 := c.arg1, cmd := encode c.instr } := by
  rw [Call.load, hu]
  rfl

/-- A BR command is run on the reader, snapshot and buffer space of the state that it was loaded in. -/
theorem exec_load_of_br {c : Call} (hu : c.instr.unit = .br) (s : State) :
    exec c.instr (c.load s) = .next ((c.load s).finishReaderRun (snapAfter c.instr s.br)
      (readerRun c.instr (c.load s).br.regs s.br.snap s.reader s.buffer)) := by
  rw [exec_of_br hu, load_of_br hu]
  rfl

/-- After MARK, whatever BR commands but MARK do, RESET restores the marked bit position. -/
theorem runs_then_reset {k : RefSource} {cs : List Call} (hcs : ∀ c ∈ cs, c.instr.unit = .br ∧ c.instr ≠ .mark)
    {s t : State} (hsrc : s.source.MarkedAt k) (hrun : Runs (cs ++ [⟨.reset, 0, 0⟩]) s t) :
    t.answered .br .ok 0 ∧ t.br.acc = s.br.snap ∧ t.source.device = .reference { k with mark := some k.pos } := by
  induction cs generalizing s with
  | nil =>
    obtain ⟨s', hexec, rfl⟩ := hrun
    rw [exec_load_of_br rfl] at hexec
    obtain ⟨p, hx, hp⟩ := resetSource_of_markedAt (r := s.reader) s.br.snap hsrc
    rw [readerRun, hx] at hexec
    cases hexec
    exact ⟨⟨rfl, rfl, rfl⟩, rfl, hp⟩
  | cons c cs ih =>
    obtain ⟨⟨hu, hmark⟩, hcs⟩ := List.forall_mem_cons.1 hcs
    obtain ⟨s', hexec, hrun⟩ := hrun
    rw [exec_load_of_br hu, snapAfter, if_neg hmark] at hexec
    cases hexec
    have hend := ih hcs (readerRun_markedAt (r := s.reader) hmark _ _ _ hsrc) hrun
    exact hend

/-- The commands of R102, with the value each returns: RDBITS, and RDBYTE but for the sentinel. -/
abbrev readsRun (c : Call) (v : Word) : Prop :=
  (∃ n, c.instr = .rdbits n) ∨ (c.instr = .rdbyte ∧ v ≠ Config.sentinel)

theorem unit_of_readsRun {c : Call} {v : Word} (hc : readsRun c v) : c.instr.unit = .br := by
  obtain ⟨n, hi⟩ | ⟨hi, -⟩ := hc <;> rw [hi] <;> rfl

/-- A command of R102 that ended OK returned the numeral of the next run of the stream. -/
theorem readerRun_ok {c : Call} {v : Word} (hc : readsRun c v) {regs : HostRegs} {snap : Accum} {r : Reader}
    {b : BufferSpace} (h : r.acc.atRest) (hd : (readerRun c.instr regs snap r b).1 = .done (Response.ok v)) :
    (readerRun c.instr regs snap r b).2.1.acc.atRest ∧ v.toNat < 2 ^ c.runLength ∧
      ∃ bs : List Byte, (readerRun c.instr regs snap r b).2.1.port.trace = r.port.trace ++ readEvents bs ∧
        r.acc.pending ++ byteBits bs =
          bitsOf c.runLength v.toNat ++ (readerRun c.instr regs snap r b).2.1.acc.pending := by
  have hrun : (rdBits c.runLength r).1 = .done (Response.ok v) ∧
      (readerRun c.instr regs snap r b).2.1 = (rdBits c.runLength r).2 := by
    obtain ⟨i, arg0, arg1⟩ := c
    obtain ⟨n, rfl⟩ | ⟨rfl, hv⟩ := hc
    · exact ⟨hd, rfl⟩
    · exact ⟨rdBits_of_rdByte_ok hd hv, rdByte_snd r⟩
  obtain ⟨hd, hx⟩ := hrun
  obtain ⟨bs, ht, hlt, hbits⟩ := rdBits_ok h hd
  rw [hx]
  exact ⟨rdBits_atRest _ h, hlt, bs, ht, hbits⟩

/-- Commands of R102 that all end OK return the numerals of consecutive runs of the stream. -/
theorem returns_reads {cs : List (Call × Word)} (hcs : ∀ c ∈ cs, readsRun c.1 c.2) {s t : State} (h : s.br.acc.atRest)
    (hrun : Returns cs s t) :
    t.br.acc.atRest ∧ (∀ c ∈ cs, c.2.toNat < 2 ^ c.1.runLength) ∧
      ∃ bs : List Byte, t.source.trace = s.source.trace ++ readEvents bs ∧
        s.br.acc.pending ++ byteBits bs = cs.flatMap (fun c => bitsOf c.1.runLength c.2.toNat) ++ t.br.acc.pending := by
  induction cs generalizing s with
  | nil =>
    obtain rfl : s = t := hrun
    exact ⟨h, by simp, [], by simp [readEvents], by simp⟩
  | cons c cs ih =>
    obtain ⟨c, v⟩ := c
    obtain ⟨hc, hcs⟩ := List.forall_mem_cons.1 hcs
    obtain ⟨s', hexec, hok, hrun⟩ := hrun
    have hu := unit_of_readsRun hc
    rw [exec_load_of_br hu] at hexec
    cases hexec
    rw [hu, finishReaderRun_answered_iff] at hok
    obtain ⟨hrest', hlt, bs, ht, hbits⟩ := readerRun_ok (r := s.reader) hc h hok
    obtain ⟨hrest, hlts, bs', ht', hbits'⟩ := ih hcs hrest' hrun
    refine ⟨hrest, List.forall_mem_cons.2 ⟨hlt, hlts⟩, bs ++ bs', ?_, ?_⟩
    · calc t.source.trace = _ := ht'
        _ = s.source.trace ++ readEvents bs ++ readEvents bs' := congrArg (· ++ readEvents bs') ht
        _ = s.source.trace ++ readEvents (bs ++ bs') := by simp [readEvents]
    · calc s.br.acc.pending ++ byteBits (bs ++ bs')
          = s.br.acc.pending ++ byteBits bs ++ byteBits bs' := by rw [byteBits_append, List.append_assoc]
        _ = bitsOf c.runLength v.toNat ++ (_ ++ byteBits bs') := by
            rw [← List.append_assoc]
            exact congrArg (· ++ byteBits bs') hbits
        _ = _ := by
            rw [List.flatMap_cons, List.append_assoc]
            exact congrArg (bitsOf c.runLength v.toNat ++ ·) hbits'

/-- An RDBITS that finds the numeral of `v` next in the stream returns `v`. -/
theorem rdBits_returns {n : Nat} (hn : 1 ≤ n ∧ n ≤ 32) {v : Word} (hv : v.toNat < 2 ^ n) {r : Reader} (h : r.acc.atRest)
    {bs : List Byte} (hs : r.port.supplies bs) {rest : List Bool}
    (hbits : r.acc.pending ++ byteBits bs = bitsOf n v.toNat ++ rest) :
    (rdBits n r).1 = .done (Response.ok v) ∧
      ∃ bs', (rdBits n r).2.port.supplies bs' ∧ (rdBits n r).2.acc.pending ++ byteBits bs' = rest := by
  have hlen : n ≤ r.acc.occ + 8 * bs.length := by
    have := congrArg List.length hbits
    simp only [List.length_append, length_pending, length_byteBits, length_bitsOf] at this
    omega
  obtain ⟨u, hd, hu, hrun, -, hs'⟩ := rdBits_fed hn h hs hlen
  rw [← List.take_append_drop ((n - r.acc.occ + 7) / 8) bs, byteBits_append, ← List.append_assoc, hrun,
    List.append_assoc] at hbits
  obtain ⟨hval, hrest⟩ := List.append_inj hbits (by simp)
  obtain rfl : u = v := BitVec.eq_of_toNat_eq (eq_of_bitsOf hu hv hval)
  exact ⟨hd, _, hs', hrest⟩

/-- RDBITS commands that find the numerals of their values in the stream return them (R103). -/
theorem returns_of_supplied {ps : List (Nat × Word)} (hps : ∀ p ∈ ps, 1 ≤ p.1 ∧ p.1 ≤ 32 ∧ p.2.toNat < 2 ^ p.1)
    {s : State} (h : s.br.acc.atRest) {bs : List Byte} (hs : s.source.supplies bs) {rest : List Bool}
    (hbits : s.br.acc.pending ++ byteBits bs = ps.flatMap (fun p => bitsOf p.1 p.2.toNat) ++ rest) :
    ∃ t, Returns (ps.map fun p => (⟨.rdbits p.1, 0, 0⟩, p.2)) s t := by
  induction ps generalizing s bs with
  | nil => exact ⟨s, rfl⟩
  | cons p ps ih =>
    obtain ⟨⟨h1, h32, hv⟩, hps⟩ := List.forall_mem_cons.1 hps
    rw [List.flatMap_cons, List.append_assoc] at hbits
    obtain ⟨hd, bs', hs', hbits'⟩ := rdBits_returns (r := s.reader) ⟨h1, h32⟩ hv h hs hbits
    obtain ⟨t, ht⟩ := ih (s := (Call.load ⟨.rdbits p.1, 0, 0⟩ s).finishReaderRun s.br.snap
      ((rdBits p.1 s.reader).1, (rdBits p.1 s.reader).2, s.buffer)) hps (rdBits_atRest p.1 (r := s.reader) h) hs' hbits'
    exact ⟨t, _, exec_load_of_br rfl s, (finishReaderRun_answered_iff ..).2 hd, ht⟩

/-! ## The obligations of the family -/

/-- Settles O35: a source that yields enough bytes lets the run end OK. -/
theorem rdbitsDeliversTheNextBits : Obligations.RdbitsDeliversTheNextBits := by
  intro n s bs h h1 h32 hs hlen
  obtain ⟨v, hd, hlt, hbits, ht, hrest⟩ := rdBits_fed (r := s.reader) ⟨h1, h32⟩ h hs hlen
  exact ⟨_, v, rfl, (finishBr_answered_iff ..).2 hd, hlt, hbits, ht, hrest, rdBits_atRest n (r := s.reader) h⟩

/-- Settles O36: a run that its source starves ends with what the last answer raises. -/
theorem rdbitsShortOfBitsConsumes : Obligations.RdbitsShortOfBitsConsumes := by
  refine fun n s bs h h1 h32 hlt => ⟨fun hs => ?_, fun hs => ?_⟩
  · obtain ⟨hd, hacc, ht⟩ := rdBits_starved (r := s.reader) eod_raises suppliesThenEnds_stops ⟨h1, h32⟩ h hs hlt
    exact ⟨_, rfl, (finishBr_answered_iff ..).2 hd, hacc, ht⟩
  · obtain ⟨hd, hacc, ht⟩ := rdBits_starved (r := s.reader) ioerr_raises suppliesThenFails_stops ⟨h1, h32⟩ h hs hlt
    exact ⟨_, rfl, (finishBr_answered_iff ..).2 hd, hacc, ht⟩

/-- Settles O38: an eight-bit run takes one byte and leaves as many bits as it found. -/
theorem rdbyteReturnsTheNextEightBits : Obligations.RdbyteReturnsTheNextEightBits := by
  intro s b bs h hs
  obtain ⟨v, hd, hlt, hbits, hocc, -, ht, hrest⟩ := rdByte_fed (fun bs p => p.supplies bs)
    (fun _ _ _ => sourceRead_supplies) (r := s.reader) h hs
  exact ⟨_, v, rfl, (finishBr_answered_iff ..).2 hd, Nat.le_of_lt_succ hlt, hbits, hocc, ht, hrest⟩

/-- Settles O40: the loop takes all its elements from the source, and then ends with their number. -/
theorem rdbufFillsTheBuffer : Obligations.RdbufFillsTheBuffer := by
  intro s bs h hb hrange hlen hs
  obtain ⟨r', b', data, hloop, -, -, -, hocc, ht, hdata, hbits, hframe⟩ := fillLoop_fed (fun bs p => p.supplies bs)
    (fun _ _ _ => sourceRead_supplies) s.br.regs.arg0.toNat 0 0 bs s.reader s.buffer h hb (by omega) hs
  rw [hlen] at hdata hframe
  refine ⟨({ s.finishBr (.done (Response.ok s.br.regs.arg1), r') with buffer := b' } : State), data, ?_,
    ⟨rfl, rfl, rfl⟩, hdata, hbits, hocc, ht, hframe⟩
  have hx : rdBuf s.br.regs.offset s.br.regs.length s.reader s.buffer = (.done (Response.ok s.br.regs.arg1), r', b') := by
    rw [HostRegs.offset, HostRegs.length, rdBuf_valid hrange, ← hlen]
    refine hloop.trans ?_
    rw [fillLoop, Nat.zero_add, hlen, BitVec.ofNat_toNat, BitVec.setWidth_eq]
  rw [exec, execRdbuf, hx]

/-- Settles O41: the loop on a source that stops ends with the count of the bytes stored, or with the failure. -/
theorem rdbufShortRead : Obligations.RdbufShortRead := by
  refine fun s bs h hb hrange hlt => ⟨fun hs => ?_, fun hs => ?_⟩
  · obtain ⟨hd, ⟨lost, hbits⟩, hrest⟩ := rdBuf_short eod_raises suppliesThenEnds_stops (r := s.reader) h hb hrange hlt hs
    exact ⟨_, _, lost, exec_of_br rfl s, (finishReaderRun_answered_iff ..).2 hd, rfl, hbits, hrest⟩
  · obtain ⟨hd, ⟨lost, hbits⟩, hrest⟩ := rdBuf_short ioerr_raises suppliesThenFails_stops (r := s.reader) h hb hrange hlt hs
    exact ⟨_, _, lost, exec_of_br rfl s, (finishReaderRun_answered_iff ..).2 hd, rfl, hbits, hrest⟩

/-- Settles O44: MARK saves the bit position on both sides, and RESET restores it from there; the source's mark is all that is
new, and no read depends on it. -/
theorem markThenResetReturnsToTheBit : Obligations.MarkThenResetReturnsToTheBit := by
  intro cs l s t k _ hsrc hcs hrun
  obtain ⟨s₁, hexec, hrun⟩ := hrun
  rw [exec_load_of_br rfl] at hexec
  cases hexec
  obtain ⟨hok, hacc, ht⟩ := runs_then_reset hcs (markSource_markedAt (r := s.reader) l hsrc) hrun
  replace hacc : t.br.acc = s.br.acc := hacc
  refine ⟨hok, hacc, ht, fun n s' t' hs' ht' => ?_⟩
  cases hs'
  cases ht'
  obtain ⟨x, a, p, q, hp, hq, -⟩ := rdBits_inStep n s.br.acc (k := k) (p := t.source) (q := s.source) ⟨k.pos, k.mark, ht, hsrc⟩
  rw [State.reader, State.reader, hacc, hp, hq]
  exact ⟨rfl, rfl, rfl⟩

/-- Settles O45: as RDBUF, but nothing is stored and the count is returned even when it is 0. -/
theorem skipCountsWhatItDiscards : Obligations.SkipCountsWhatItDiscards := by
  intro s bs h
  refine ⟨fun hlen hs => ?_, fun hlt hs => ?_, fun hlt hs => ?_⟩
  · obtain ⟨r', gone, hloop, -, -, hocc, ht, hgone, hbits⟩ := skipLoop_fed (fun bs p => p.supplies bs)
      (fun _ _ _ => sourceRead_supplies) 0 0 bs s.reader h hs
    have hx : skipLoop s.br.regs.count.toNat 0 s.reader = (.done (Response.ok s.br.regs.arg0), r') := by
      rw [HostRegs.count, ← hlen]
      refine hloop.trans ?_
      rw [skipLoop, Nat.zero_add, hlen, BitVec.ofNat_toNat, BitVec.setWidth_eq]
    refine ⟨s.finishBr (.done (Response.ok s.br.regs.arg0), r'), gone, ?_, ⟨rfl, rfl, rfl⟩, hocc, hgone, hbits, ht, rfl⟩
    rw [exec, execSkip, hx]
  · obtain ⟨hd, hacc, ht⟩ := skipLoop_short eod_raises suppliesThenEnds_stops (r := s.reader) h hlt hs
    exact ⟨_, rfl, (finishBr_answered_iff ..).2 hd, hacc, ht, rfl⟩
  · obtain ⟨hd, hacc, ht⟩ := skipLoop_short ioerr_raises suppliesThenFails_stops (r := s.reader) h hlt hs
    exact ⟨_, rfl, (finishBr_answered_iff ..).2 hd, hacc, ht, rfl⟩

/-- Settles O46: fewer than eight bits stay pending, so the lengths of the bit strings give the number of bytes read. -/
theorem readerStreamLaw : Obligations.ReaderStreamLaw := by
  intro cs s t hcs hbr hrun
  have hacc0 : s.br.acc = Accum.empty := congrArg BrUnit.acc hbr
  obtain ⟨hrest, hlts, bs, ht, hbits⟩ := returns_reads hcs (hacc0 ▸ Accum.empty_atRest) hrun
  rw [hacc0, pending_of_occ_zero rfl, List.nil_append] at hbits
  have hlen : 8 * bs.length = (cs.map fun c => c.1.runLength).sum + t.br.acc.occ := by
    simpa [List.length_flatMap] using congrArg List.length hbits
  have h7 := hrest.1
  exact ⟨bs, ht, hbits, hlts, by omega, by omega, hrest.2⟩

/-- Settles O47: the accepted bytes are the numerals of the values and some padding, and RDBITS finds each numeral again. -/
theorem roundTripLaw : Obligations.RoundTripLaw := by
  intro ps s t u r hps hbw hacc hrun hclose hok hbr hs
  have hwrites : ∀ c ∈ ps.map fun p => (⟨.wrbits p.1, p.2, 0⟩ : Call), writesOrFlushes c.instr := by
    simp only [List.forall_mem_map]
    exact fun p _ => .inl ⟨p.1, rfl⟩
  have hbits := (writerStreamLaw _ s t hwrites hbw hacc hrun).2 u hclose hok
  rw [List.flatMap_map] at hbits
  have hacc0 : r.br.acc = Accum.empty := congrArg BrUnit.acc hbr
  refine returns_of_supplied hps (hacc0 ▸ Accum.empty_atRest) hs (Eq.trans ?_ hbits)
  rw [hacc0, pending_of_occ_zero rfl, List.nil_append]

/-- Settles O37: RDBYTE differs from the run for one response only, and writes back the same reader. -/
theorem rdbyteIsAnEightBitRunWithSentinel : Obligations.RdbyteIsAnEightBitRunWithSentinel := by
  refine fun s => ⟨_, rfl, fun heos => ?_, fun hother => ?_⟩
  · rw [finishBr_answered_iff] at heos
    rw [exec, execRdbyte, rdByte_of_endOfStream heos]
    generalize rdBits 8 s.reader = x at *
    obtain ⟨e, r⟩ := x
    obtain rfl : e = _ := heos
    rfl
  · rw [finishBr_answered_iff] at hother
    rw [exec, execRdbyte, rdByte_eq_rdBits hother]

/-- Settles O42: a mark that is answered lets MARK end OK. -/
theorem markSavesTheBitPosition : Obligations.MarkSavesTheBitPosition := by
  intro s p hfree hp
  have hx : markSource s.br.regs.limit s.reader = (.done (Response.ok 0), { acc := s.br.acc, port := p }) := by
    rw [markSource, show sourceMark s.br.regs.limit s.reader.port = _ from hp]
    rfl
  refine ⟨?_, sourceMark_trace hp⟩
  rw [exec, execMark, hx]
  exact congrArg _ (finishBr_done_eq_respond (s := { s with br := { s.br with snap := s.br.acc } }) hfree _ _)

/-- Settles O43: the source's answer decides which accumulator is written back. -/
theorem resetRestoresOrChangesNothing : Obligations.ResetRestoresOrChangesNothing := by
  refine fun s p hfree => ⟨fun hp => ?_, fun hp => ?_, fun a hp => sourceReset_trace hp⟩
  · have hx : resetSource s.br.snap s.reader = (.done (Response.ok 0), { acc := s.br.snap, port := p }) := by
      rw [resetSource, show sourceReset s.reader.port = _ from hp]
    rw [exec, execReset, hx]
    exact congrArg _ (finishBr_done_eq_respond hfree _ _)
  · have hx : resetSource s.br.snap s.reader = (.done (raise .ioError), { acc := s.br.acc, port := p }) := by
      rw [resetSource, show sourceReset s.reader.port = _ from hp]
      rfl
    rw [exec, execReset, hx]
    exact congrArg _ (finishBr_done_eq_respond hfree _ _)

end Sys2Proof.Machine

/-! SUPPORT. The exception family: which words are illegal, what a command responds to the answers it got, and that
nothing but a host access outside the registers stops the machine (60_exceptions.md R120 to R130). -/

namespace Sys2Proof.Machine

/-! ## Illegal words (30_encoding.md R54) -/

theorem exists_withoutCount_error_iff {n : Byte} {i : Instr} : (∃ e, withoutCount n i = .error e) ↔ n ≠ 0 := by
  unfold withoutCount
  split
  next h => simp [h]
  next h => exact iff_of_true ⟨_, rfl⟩ h

/-- `OPC` and `N` alone select no command in two cases: no row has the opcode, or the row has no count. -/
theorem exists_decodeOpcode_error_iff (opc n : Byte) : (∃ e, decodeOpcode opc n = .error e) ↔
    opc.toNat ∉ [0x10, 0x11, 0x12, 0x13, 0x14, 0x20, 0x21, 0x22, 0x23, 0x24, 0x25] ∨
      (n ≠ 0 ∧ opc.toNat ≠ 0x10 ∧ opc.toNat ≠ 0x20) := by
  unfold decodeOpcode
  split
  case h_12 => exact iff_of_true ⟨_, rfl⟩ (.inl (by simp_all))
  all_goals simp [*, exists_withoutCount_error_iff]

theorem exists_decode_error_iff (w : Word) : (∃ e, decode w = .error e) ↔
    rsvField w ≠ 0 ∨ ∃ e, decodeOpcode (opcField w) (nField w) = .error e := by
  unfold decode
  split
  next h => simp [h]
  next h => exact iff_of_true ⟨_, rfl⟩ (.inl h)

/-- The high nibble of the opcode names the unit (R52). -/
theorem opcode_nibble (i : Instr) : i.opcode.toNat / 16 = if i.unit = .bw then 1 else 2 := by
  cases i <;> simp [Instr.opcode, Instr.unit]

/-- A word that decodes is illegal for the unit that does not run its command. -/
theorem exists_decodeFor_error_iff_of_ok {u : UnitId} {w : Word} {i : Instr} (h : decode w = .ok i) :
    (∃ e, decodeFor u w = .error e) ↔
      (u = .bw ∧ (opcField w).toNat / 16 = 2) ∨ (u = .br ∧ (opcField w).toNat / 16 = 1) := by
  obtain ⟨-, hopc, -⟩ := (decode_ok_iff w i).1 h
  rw [hopc, opcode_nibble, decodeFor, h]
  cases u <;> cases hu : i.unit <;> simp [hu]

theorem decodeFor_error_of_decode {w : Word} {e : Illegal} (h : decode w = .error e) (u : UnitId) :
    decodeFor u w = .error e := by
  rw [decodeFor, h]

/-! ## What a step can do besides going on (R127) -/

theorem exec_next (i : Instr) (s : State) : ∃ t, exec i s = .next t := by
  cases hu : i.unit with
  | bw => exact ⟨_, exec_of_bw hu s⟩
  | br => exact ⟨_, exec_of_br hu s⟩

theorem issue_next (u : UnitId) (w : Word) (s : State) : ∃ t, issue u w s = .next t := by
  unfold issue
  split
  · exact ⟨_, rfl⟩
  · split
    · exact exec_next _ _
    · exact ⟨_, rfl⟩

theorem writeRegister_next (u : UnitId) (reg : HostReg) (v : Word) (s : State) : ∃ t, writeRegister u reg v s = .next t := by
  cases reg with
  | cmd => exact issue_next u v s
  | arg0 | arg1 | status | result => exact ⟨_, rfl⟩

/-- An event goes on to a next state, but for a host access that reaches no register. -/
theorem runEvent_cases (e : Event) (s : State) :
    (∃ t, runEvent e s = .next t) ∨
    (∃ u o, runEvent e s = .fault (.noRegister u o) ∧ HostReg.atOffset o = none ∧ (e = .read u o ∨ ∃ v, e = .write u o v)) ∨
    (∃ a, runEvent e s = .fault (.noRegisterAt a) ∧ s.map.locate a = none ∧ (e = .readAt a ∨ ∃ v, e = .writeAt a v)) := by
  cases e <;> simp only [runEvent]
  case write u o v =>
    split
    next hnone => exact .inr (.inl ⟨u, o, rfl, hnone, .inr ⟨v, rfl⟩⟩)
    next => exact .inl (writeRegister_next _ _ _ _)
  case read u o =>
    split
    next hnone => exact .inr (.inl ⟨u, o, rfl, hnone, .inl rfl⟩)
    next => exact .inl ⟨_, rfl⟩
  case writeAt a v =>
    split
    next hnone => exact .inr (.inr ⟨a, rfl, hnone, .inr ⟨v, rfl⟩⟩)
    next => exact .inl (writeRegister_next _ _ _ _)
  case readAt a =>
    split
    next hnone => exact .inr (.inr ⟨a, rfl, hnone, .inl rfl⟩)
    next => exact .inl ⟨_, rfl⟩
  case reset | attachSink | attachSource | storeBuffer => exact .inl ⟨_, rfl⟩

theorem not_mem_offsets_of_atOffset {o : Word} (h : HostReg.atOffset o = none) :
    o ∉ [(0x00 : Word), 0x04, 0x08, 0x0C, 0x10] := by
  simp only [List.mem_cons, List.not_mem_nil, or_false]
  rintro (rfl | rfl | rfl | rfl | rfl) <;> cases h

theorem not_alone_of_locate {m : AddressMap} {a : Nat} (h : m.locate a = none) :
    ¬ ∃ u, (∃ reg : HostReg, a = m.base u + reg.offset.toNat) ∧
      ∀ (x : UnitId) (reg : HostReg), a = m.base x + reg.offset.toNat → x = u := by
  rintro ⟨u, ⟨reg, ha⟩, halone⟩
  cases h.symm.trans ((locate_iff m a u reg).2 ⟨ha, halone⟩)

/-- A step faults only on a host access that reaches no register, and is never refused. -/
theorem step_cases (s : State) :
    (∃ t, step s = .next t) ∨
    (∃ u o, step s = .fault (.noRegister u o) ∧ HostReg.atOffset o = none ∧
      ∃ rest, s.host = .read u o :: rest ∨ ∃ v, s.host = .write u o v :: rest) ∨
    (∃ a, step s = .fault (.noRegisterAt a) ∧ s.map.locate a = none ∧
      ∃ rest, s.host = .readAt a :: rest ∨ ∃ v, s.host = .writeAt a v :: rest) := by
  unfold step
  split
  next => exact .inl ⟨s, rfl⟩
  next e rest hs =>
    obtain hnext | ⟨u, o, hf, hnone, he⟩ | ⟨a, hf, hnone, he⟩ := runEvent_cases e { s with host := rest }
    · exact .inl hnext
    · refine .inr (.inl ⟨u, o, hf, hnone, rest, ?_⟩)
      simpa [hs] using he
    · refine .inr (.inr ⟨a, hf, hnone, rest, ?_⟩)
      simpa [hs] using he

/-! ## Operands that R122 rejects -/

theorem not_badArgument_rdbits_iff (n : Nat) (s : State) : ¬ badArgument (.rdbits n) s ↔ 1 ≤ n ∧ n ≤ 32 := by
  simp only [badArgument]
  omega

theorem not_badArgument_wrbuf_iff (s : State) :
    ¬ badArgument .wrbuf s ↔ s.bw.regs.offset.toNat + s.bw.regs.length.toNat ≤ 2 ^ 32 := Nat.not_lt

theorem not_badArgument_rdbuf_iff (s : State) :
    ¬ badArgument .rdbuf s ↔ s.br.regs.offset.toNat + s.br.regs.length.toNat ≤ 2 ^ 32 := Nat.not_lt

theorem wrBuf_invalid {o l : Word} (h : ¬ o.toNat + l.toNat ≤ 2 ^ 32) (b : BufferSpace) (w : Writer) :
    wrBuf b o l w = (.done (raise .invalidArgument), w) := by
  rw [wrBuf, if_neg (by rwa [rangeOk_iff])]

theorem rdBuf_invalid {o l : Word} (h : ¬ o.toNat + l.toNat ≤ 2 ^ 32) (r : Reader) (b : BufferSpace) :
    rdBuf o l r b = (.done (raise .invalidArgument), r, b) := by
  rw [rdBuf, if_neg (by rwa [rangeOk_iff])]

theorem writerRun_of_badArgument {i : Instr} {s : State} (hu : i.unit = .bw) (hbad : badArgument i s) :
    writerRun i s.bw.regs s.buffer s.writer = (.done (raise .invalidArgument), s.writer) := by
  cases i with
  | wrbits n => exact wrBits_invalid (mt (not_badArgument_wrbits_iff n s).2 (not_not.2 hbad)) _
  | wrbuf => exact wrBuf_invalid (mt (not_badArgument_wrbuf_iff s).2 (not_not.2 hbad)) _ _
  | wrbyte | wflush | wclose => exact hbad.elim
  | rdbits | rdbyte | rdbuf | mark | reset | skip => cases hu

theorem readerRun_of_badArgument {i : Instr} {s : State} (hu : i.unit = .br) (hbad : badArgument i s) :
    readerRun i s.br.regs s.br.snap s.reader s.buffer = (.done (raise .invalidArgument), s.reader, s.buffer) := by
  cases i with
  | rdbits n => rw [readerRun, rdBits_invalid (mt (not_badArgument_rdbits_iff n s).2 (not_not.2 hbad))]
  | rdbuf => exact rdBuf_invalid (mt (not_badArgument_rdbuf_iff s).2 (not_not.2 hbad)) _ _
  | rdbyte | mark | reset | skip => exact hbad.elim
  | wrbits | wrbyte | wrbuf | wflush | wclose => cases hu

/-! ## What a command that completes responds to the answers it got (R122 to R124) -/

theorem WriteAnswers.response {ws : List SinkEvent} {e : Ending SinkReq} (h : WriteAnswers ws e) {x : Response}
    (hd : e = .done x) : x = if ∃ e ∈ ws, e.ack = .ioerr then raise .ioError else Response.ok 0 := by
  cases h with
  | ok hok =>
    cases hd
    exact (if_neg fun ⟨e, he, hio⟩ => by cases (hok e he).symm.trans hio).symm
  | ioerr e he hio => cases hd; exact (if_pos ⟨e, he, hio⟩).symm
  | unanswered _ _ => cases hd

theorem wClose_response (w : Writer) {x : Response} (hd : (wClose w).1 = .done x) :
    ∃ ws, (wClose w).2.port.trace = w.port.trace ++ ws ∧
      x = if ∃ e ∈ ws, e.ack = .ioerr then raise .ioError else Response.ok 0 := by
  obtain ⟨-, acks, ht, ⟨hend, hlen⟩ | ⟨q, hq, -⟩⟩ := closeSteps_cases (closeRequests w.acc) false w
  · refine ⟨_, ht, ?_⟩
    cases hd.symm.trans hend
    have hmem : (∃ e ∈ ((closeRequests w.acc).zip acks).map fun x => ({ req := x.1, ack := x.2 } : SinkEvent),
        e.ack = .ioerr) ↔ .ioerr ∈ acks := by
      conv_rhs => rw [← List.map_snd_zip hlen.le]
      simp
    simp only [hmem, Bool.false_eq_true, false_or]
  · cases hd.symm.trans hq

/-- A BW command with valid operands that completes responds `(IO_ERROR, 0)` when a transaction of it was refused, and
`(OK, 0)` when none was. -/
theorem writerRun_response {i : Instr} {s : State} (hu : i.unit = .bw) (hgood : ¬ badArgument i s) {x : Response}
    (hd : (writerRun i s.bw.regs s.buffer s.writer).1 = .done x) :
    ∃ ws, (writerRun i s.bw.regs s.buffer s.writer).2.port.trace = s.sink.trace ++ ws ∧
      x = if ∃ e ∈ ws, e.ack = .ioerr then raise .ioError else Response.ok 0 := by
  cases i with
  | wrbits n =>
    obtain ⟨hn, hv⟩ := (not_badArgument_wrbits_iff n s).1 hgood
    obtain ⟨ws, ht, h⟩ := wrBits_answers hn hv s.writer
    exact ⟨ws, ht, h.response hd⟩
  | wrbyte =>
    obtain ⟨ws, ht, h⟩ := wrBits_answers (n := 8) (by decide) (byte_fits s.bw.regs).2 s.writer
    exact ⟨ws, ht, h.response hd⟩
  | wrbuf =>
    rw [writerRun, wrBuf_valid ((not_badArgument_wrbuf_iff s).1 hgood)] at hd ⊢
    obtain ⟨ws, ht, h⟩ := wrBytes_answers s.buffer s.bw.regs.offset.toNat s.bw.regs.length.toNat s.writer
    exact ⟨ws, ht, h.response hd⟩
  | wflush => cases hd; exact ⟨[], (List.append_nil _).symm, by simp⟩
  | wclose => exact wClose_response s.writer hd
  | rdbits | rdbyte | rdbuf | mark | reset | skip => cases hu

/-- One of these source transactions was refused. -/
abbrev SourceRefused (rs : List SourceEvent) : Prop := .read .ioerr ∈ rs ∨ .reset .ioerr ∈ rs

/-- How a BR command with valid operands that completes responds to the transactions `rs` it made; `E` says what it may
respond to an EOD. -/
inductive ReaderResponse (E : Response → Prop) (rs : List SourceEvent) : Response → Prop
  | ok (v : Word) (hio : ¬ SourceRefused rs) (heod : .read .eod ∉ rs) : ReaderResponse E rs (Response.ok v)
  | eod (x : Response) (hx : E x) (hio : ¬ SourceRefused rs) (heod : .read .eod ∈ rs) : ReaderResponse E rs x
  | ioerr (hio : SourceRefused rs) (heod : .read .eod ∉ rs) : ReaderResponse E rs (raise .ioError)

/-- What a BR command responds to an EOD (R123): RDBITS reports it, RDBYTE, RDBUF and SKIP convert it. -/
def EodResponse (i : Instr) (regs : HostRegs) (x : Response) : Prop :=
  match i with
  | .rdbits _ => x = raise .endOfStream
  | .rdbyte => x = Response.ok Config.sentinel
  | .rdbuf => ∃ v, x = Response.ok v ∧ (v = Config.sentinel ∨ v.toNat < regs.length.toNat)
  | .skip => ∃ v, x = Response.ok v ∧ v.toNat < regs.count.toNat
  | .mark | .reset | .wrbits _ | .wrbyte | .wrbuf | .wflush | .wclose => False

/-- RDBITS alone reports an EOD. -/
theorem EodResponse.code {i : Instr} {regs : HostRegs} {x : Response} (h : EodResponse i regs x) :
    (x.code = .endOfStream ∧ ∃ n, i = .rdbits n) ∨ (x.code = .ok ∧ ∀ n, i ≠ .rdbits n) := by
  cases i with
  | rdbits n => cases h; exact .inl ⟨rfl, n, rfl⟩
  | rdbyte => cases h; exact .inr ⟨rfl, nofun⟩
  | rdbuf | skip => obtain ⟨v, rfl, -⟩ := h; exact .inr ⟨rfl, nofun⟩
  | mark | reset | wrbits | wrbyte | wrbuf | wflush | wclose => exact h.elim

theorem allBytes.answers {rs : List SourceEvent} (h : allBytes rs) : ¬ SourceRefused rs ∧ .read .eod ∉ rs := by
  refine ⟨?_, fun hm => ?_⟩
  · rintro (hm | hm) <;> obtain ⟨b, hb⟩ := h _ hm <;> cases hb
  · obtain ⟨b, hb⟩ := h _ hm
    cases hb

theorem ReadAnswers.response {E : Response → Prop} {rs : List SourceEvent} {e : Ending SourceReq} (h : ReadAnswers E rs e)
    {x : Response} (hd : e = .done x) : ReaderResponse E rs x := by
  cases h with
  | ok v h =>
    cases hd
    exact .ok v h.answers.1 h.answers.2
  | eod r xs h hr he =>
    cases hd
    exact .eod x hr (by simpa [he] using h.answers.1) (by simp [he])
  | ioerr xs h he =>
    cases hd
    exact .ioerr (.inl (by simp [he])) (by simpa [he] using h.answers.2)
  | unanswered _ => cases hd

/-- The EOD that RDBITS reports is the answer to its last read. -/
theorem ReadAnswers.last_of_endOfStream {E : Response → Prop} {rs : List SourceEvent} {e : Ending SourceReq}
    (h : ReadAnswers E rs e) (hd : e = .done (raise .endOfStream)) : ∃ xs, rs = xs ++ [.read .eod] := by
  cases h with
  | ok v _ => exact absurd hd (done_ok_ne_raise v _)
  | eod r xs _ _ he => exact ⟨xs, he⟩
  | ioerr xs _ _ => cases hd
  | unanswered _ => cases hd

theorem markSource_response (E : Response → Prop) (l : Word) (r : Reader) {x : Response}
    (hd : (markSource l r).1 = .done x) :
    ∃ rs, (markSource l r).2.port.trace = r.port.trace ++ rs ∧ ReaderResponse E rs x := by
  obtain ⟨p, hx, -, ht⟩ | ⟨p, hx, -⟩ := markSource_cases l r <;> rw [hx] at hd ⊢
  · cases hd; exact ⟨_, ht, .ok 0 (by simp [SourceRefused]) (by simp)⟩
  · cases hd

theorem resetSource_response (E : Response → Prop) (snap : Accum) (r : Reader) {x : Response}
    (hd : (resetSource snap r).1 = .done x) :
    ∃ rs, (resetSource snap r).2.port.trace = r.port.trace ++ rs ∧ ReaderResponse E rs x := by
  obtain ⟨p, hx, -, ht⟩ | ⟨p, hx, -, ht⟩ | ⟨p, hx, -⟩ := resetSource_cases snap r <;> rw [hx] at hd ⊢
  · cases hd; exact ⟨_, ht, .ok 0 (by simp [SourceRefused]) (by simp)⟩
  · cases hd; exact ⟨_, ht, .ioerr (.inr (by simp)) (by simp)⟩
  · cases hd

/-- A BR command with valid operands that completes. -/
theorem readerRun_response {i : Instr} {s : State} (hu : i.unit = .br) (hgood : ¬ badArgument i s) {x : Response}
    (hd : (readerRun i s.br.regs s.br.snap s.reader s.buffer).1 = .done x) :
    ∃ rs, (readerRun i s.br.regs s.br.snap s.reader s.buffer).2.1.port.trace = s.source.trace ++ rs ∧
      ReaderResponse (EodResponse i s.br.regs) rs x := by
  cases i with
  | rdbits n =>
    obtain ⟨rs, ht, h⟩ := rdBits_answers ((not_badArgument_rdbits_iff n s).1 hgood) s.reader
    exact ⟨rs, ht, h.response hd⟩
  | rdbyte =>
    obtain ⟨rs, ht, h⟩ := rdByte_answers s.reader
    exact ⟨rs, ht, h.response hd⟩
  | rdbuf =>
    rw [readerRun, rdBuf_valid ((not_badArgument_rdbuf_iff s).1 hgood)] at hd ⊢
    obtain ⟨rs, ht, h⟩ := fillLoop_answers s.br.regs.offset.toNat s.br.regs.length.toNat 0 s.reader s.buffer
    exact ⟨rs, ht, h.response hd⟩
  | mark => exact markSource_response _ _ _ hd
  | reset => exact resetSource_response _ _ _ hd
  | skip =>
    obtain ⟨rs, ht, h⟩ := skipLoop_answers s.br.regs.count.toNat 0 s.reader
    exact ⟨rs, ht, h.response hd⟩
  | wrbits | wrbyte | wrbuf | wflush | wclose => cases hu

theorem ReaderResponse.code_eq_endOfStream_iff {i : Instr} {regs : HostRegs} {rs : List SourceEvent} {x : Response}
    (h : ReaderResponse (EodResponse i regs) rs x) :
    x.code = .endOfStream ↔ (∃ n, i = .rdbits n) ∧ .read .eod ∈ rs := by
  cases h with
  | ok v _ heod => exact iff_of_false (by simp) fun h => heod h.2
  | eod x hx _ heod =>
    obtain ⟨hc, hi⟩ | ⟨hc, hi⟩ := hx.code
    · exact iff_of_true hc ⟨hi, heod⟩
    · exact iff_of_false (by simp [hc]) fun ⟨⟨n, hn⟩, _⟩ => hi n hn
  | ioerr _ heod => exact iff_of_false (by simp [ErrorKind.code]) fun h => heod h.2

theorem ReaderResponse.code_eq_ioError_iff {i : Instr} {regs : HostRegs} {rs : List SourceEvent} {x : Response}
    (h : ReaderResponse (EodResponse i regs) rs x) : x.code = .ioError ↔ SourceRefused rs := by
  cases h with
  | ok v hio _ => exact iff_of_false (by simp) hio
  | eod x hx hio _ =>
    obtain ⟨hc, -⟩ | ⟨hc, -⟩ := hx.code <;> exact iff_of_false (by simp [hc]) hio
  | ioerr hio _ => exact iff_of_true rfl hio

/-- Where a source answered EOD, the response is the one the command has for it. -/
theorem ReaderResponse.of_eod {E : Response → Prop} {rs : List SourceEvent} {x : Response} (h : ReaderResponse E rs x)
    (hm : .read .eod ∈ rs) : E x := by
  cases h with
  | ok v _ heod => exact absurd hm heod
  | eod x hx _ _ => exact hx
  | ioerr _ heod => exact absurd hm heod

theorem ReaderResponse.code_ne_invalidArgument {i : Instr} {regs : HostRegs} {rs : List SourceEvent} {x : Response}
    (h : ReaderResponse (EodResponse i regs) rs x) : x.code ≠ .invalidArgument := by
  cases h with
  | ok v _ _ => simp
  | eod x hx _ _ => obtain ⟨hc, -⟩ | ⟨hc, -⟩ := hx.code <;> simp [hc]
  | ioerr _ _ => simp [ErrorKind.code]

/-! ## The same, read off the state a command leaves -/

theorem statusWord_eq_two_iff (c : Code) : statusWord c = 2 ↔ c = .endOfStream :=
  ⟨fun h => statusWord_inj (h.trans (rfl : (2 : Word) = statusWord .endOfStream)), fun h => h ▸ rfl⟩

theorem statusWord_eq_three_iff (c : Code) : statusWord c = 3 ↔ c = .ioError :=
  ⟨fun h => statusWord_inj (h.trans (rfl : (3 : Word) = statusWord .ioError)), fun h => h ▸ rfl⟩

theorem exec_of_badArgument {i : Instr} {s : State} (hfree : s.blocked i.unit = false) (hbad : badArgument i s) :
    exec i s = .next (s.respond i.unit 1 0) := by
  cases hu : i.unit with
  | bw =>
    rw [hu] at hfree
    rw [exec_of_bw hu, writerRun_of_badArgument hu hbad]
    exact congrArg _ (finishBw_done_eq_respond hfree _ s.sink)
  | br =>
    rw [hu] at hfree
    have hsnap : snapAfter i s.br = s.br.snap := if_neg (by rintro rfl; exact hbad)
    rw [exec_of_br hu, readerRun_of_badArgument hu hbad, hsnap]
    exact congrArg _ (finishBr_done_eq_respond hfree _ s.reader)

theorem done_of_not_blocked {ρ : Type} {e : Ending ρ} (h : e.pending.isSome = false) : ∃ x, e = .done x := by
  cases e with
  | done x => exact ⟨x, rfl⟩
  | blocked q => cases h

/-- A BW command that completes, with valid operands or not. -/
theorem exec_bw_completes {i : Instr} {s t : State} (hu : i.unit = .bw) (ht : exec i s = .next t)
    (hfree : t.blocked .bw = false) :
    ∃ x ws, t.bw.regs = s.bw.regs.report x ∧ t.sink.trace = s.sink.trace ++ ws ∧ t.source = s.source ∧
      x.code ≠ .endOfStream ∧ (x.code = .ioError ↔ ∃ e ∈ ws, e.ack = .ioerr) := by
  rw [exec_of_bw hu] at ht
  cases ht
  obtain ⟨x, hd⟩ := done_of_not_blocked hfree
  by_cases hbad : badArgument i s
  · rw [writerRun_of_badArgument hu hbad]
    exact ⟨_, [], rfl, (List.append_nil _).symm, rfl, by simp [ErrorKind.code], by simp [ErrorKind.code]⟩
  · obtain ⟨ws, htr, hx⟩ := writerRun_response hu hbad hd
    refine ⟨x, ws, by rw [finishBw_regs, hd, done_report], htr, rfl, ?_⟩
    split at hx
    next hio => exact ⟨by simp [hx, ErrorKind.code], iff_of_true (by simp [hx, ErrorKind.code]) hio⟩
    next hio => exact ⟨by simp [hx], iff_of_false (by simp [hx]) hio⟩

/-- A BR command that completes: its operands were rejected and it made no transaction, or it responds to the answers it
got. -/
theorem exec_br_completes {i : Instr} {s t : State} (hu : i.unit = .br) (ht : exec i s = .next t)
    (hfree : t.blocked .br = false) :
    ∃ x rs, t.br.regs = s.br.regs.report x ∧ t.source.trace = s.source.trace ++ rs ∧ t.sink = s.sink ∧
      ((x = raise .invalidArgument ∧ rs = []) ∨ ReaderResponse (EodResponse i s.br.regs) rs x) := by
  rw [exec_of_br hu] at ht
  cases ht
  obtain ⟨x, hd⟩ := done_of_not_blocked hfree
  by_cases hbad : badArgument i s
  · rw [readerRun_of_badArgument hu hbad]
    exact ⟨_, [], rfl, (List.append_nil _).symm, rfl, .inl ⟨rfl, rfl⟩⟩
  · obtain ⟨rs, htr, hx⟩ := readerRun_response hu hbad hd
    exact ⟨x, rs, congrArg (fun e => Ending.report e s.br.regs) hd, htr, rfl, .inr hx⟩

theorem exec_mark_status {s t : State} (ht : exec .mark s = .next t) (hfree : t.blocked .br = false) :
    t.br.regs.status = 0 := by
  cases ht
  obtain ⟨p, hx, -⟩ | ⟨p, hx, -⟩ := markSource_cases s.br.regs.limit s.reader <;> rw [hx] at hfree ⊢
  · rfl
  · cases hfree

/-! ## What a writing command appends, however it ends (R126) -/

/-- At the end `x` the writer `w` has appended a first part of `bits`, all of them when `x` is `(OK, 0)`. -/
def AppendsPrefix (bits : List Bool) (w : Writer) (x : Ending SinkReq × Writer) : Prop :=
  x.2.acc.legal ∧ ∃ j, x.2.out = w.out ++ bits.take j ∧ (x.1 = .done (Response.ok 0) → bits.length ≤ j)

theorem WriteOutcome.appendsPrefix {value rem : Nat} {w : Writer} {x : Ending SinkReq × Writer}
    (h : WriteOutcome value rem w x) : AppendsPrefix (bitsOf rem value) w x := by
  obtain ⟨hlegal, es, j, -, hout, -, ⟨-, rfl, -⟩ | ⟨hx, -⟩ | ⟨hx, -⟩⟩ := h
  · exact ⟨hlegal, j, hout, fun _ => (length_bitsOf _ _).le⟩
  · exact ⟨hlegal, j, hout, fun hd => absurd (hd.symm.trans hx) (done_ok_ne_raise 0 _)⟩
  · exact ⟨hlegal, j, hout, fun hd => by cases hd.symm.trans hx⟩

theorem wrBytes_appendsPrefix (b : BufferSpace) (a n : Nat) {w : Writer} (h : w.acc.legal) :
    AppendsPrefix (byteBits (b.elements .bw a n)) w (wrBytes b a n w) := by
  obtain ⟨hlegal, j, hout, ⟨-, hj, -⟩ | ⟨hx, -⟩ | ⟨hx, -⟩⟩ := wrBytes_cases b a n w h
  · exact ⟨hlegal, j, hout, fun _ => by simpa using hj⟩
  · exact ⟨hlegal, j, hout, fun hd => absurd (hd.symm.trans hx) (done_ok_ne_raise 0 _)⟩
  · exact ⟨hlegal, j, hout, fun hd => by cases hd.symm.trans hx⟩

/-- A command that writes, on a state whose registers hold its operands. -/
theorem writerRun_appendsPrefix {c : Call} (hc : (∃ n, c.instr = .wrbits n) ∨ c.instr = .wrbyte ∨ c.instr = .wrbuf)
    {s : State} (h0 : s.bw.regs.arg0 = c.arg0) (h1 : s.bw.regs.arg1 = c.arg1) (hgood : ¬ badArgument c.instr s)
    (h : s.bw.acc.legal) :
    AppendsPrefix (c.contribution s.buffer) s.writer (writerRun c.instr s.bw.regs s.buffer s.writer) := by
  obtain ⟨i, arg0, arg1⟩ := c
  obtain rfl : s.bw.regs.arg0 = arg0 := h0
  obtain rfl : s.bw.regs.arg1 = arg1 := h1
  obtain ⟨n, rfl⟩ | rfl | rfl : (∃ n, i = .wrbits n) ∨ i = .wrbyte ∨ i = .wrbuf := hc
  · obtain ⟨hn, hv⟩ := (not_badArgument_wrbits_iff n s).1 hgood
    exact (wrBits_cases (w := s.writer) hn hv h).appendsPrefix
  · obtain ⟨hvalue, hfits⟩ := byte_fits s.bw.regs
    have hrun := (wrBits_cases (w := s.writer) (n := 8) (by decide) hfits h).appendsPrefix
    rw [hvalue] at hrun
    exact hrun
  · rw [writerRun, wrBuf_valid ((not_badArgument_wrbuf_iff s).1 hgood)]
    exact wrBytes_appendsPrefix _ _ _ h

/-! ## The obligations of the family -/

/-- Settles O10: a word that does not decode at all is in one of the first three cases, one that does in one of the last
two when its command is the other unit's; what issuing it does is O4. -/
theorem illegalWordsAreRejected : Obligations.IllegalWordsAreRejected := by
  refine fun u w => ⟨?_, fun s rest hs hfree ⟨e, he⟩ => (stepRunsTheDecodedCommand s u w rest hs hfree).2 e he⟩
  have hdecode := exists_decode_error_iff w
  rw [exists_decodeOpcode_error_iff] at hdecode
  cases hd : decode w with
  | error e =>
    have hcause := hdecode.1 ⟨e, hd⟩
    exact iff_of_true ⟨e, decodeFor_error_of_decode hd u⟩ (by tauto)
  | ok i =>
    have hno : ¬ ∃ e, decode w = .error e := by simp [hd]
    rw [exists_decodeFor_error_iff_of_ok hd]
    rw [hdecode] at hno
    tauto

/-- Settles O16: operands that R122 rejects end the command before its run; a run ends with another code. -/
theorem invalidArgumentCauses : Obligations.InvalidArgumentCauses := by
  refine fun i s hfree => ⟨exec_of_badArgument hfree, fun hgood => ?_⟩
  cases hu : i.unit with
  | bw =>
    refine ⟨_, exec_of_bw hu s, fun v hv => ?_⟩
    obtain ⟨ws, -, hx⟩ := writerRun_response hu hgood ((finishBw_answered_iff ..).1 hv)
    split at hx <;> cases hx
  | br =>
    refine ⟨_, exec_of_br hu s, fun v hv => ?_⟩
    obtain ⟨rs, -, hx⟩ := readerRun_response hu hgood ((finishReaderRun_answered_iff ..).1 hv)
    exact hx.code_ne_invalidArgument rfl

/-- Settles O17: a BW command makes no read; a BR command responds to an EOD as `EodResponse` says, which is END_OF_STREAM
for RDBITS alone. -/
theorem endOfStreamCauses : Obligations.EndOfStreamCauses := by
  intro i s t ht hfree
  cases hu : i.unit with
  | bw =>
    rw [hu] at hfree
    obtain ⟨x, -, hregs, -, hsource, hcode, -⟩ := exec_bw_completes hu ht hfree
    refine ⟨[], by rw [hsource, List.append_nil], ?_, nofun⟩
    rw [regs_bw, hregs, report_status, statusWord_eq_two_iff]
    exact iff_of_false hcode (by simp)
  | br =>
    rw [hu] at hfree
    obtain ⟨x, rs, hregs, htrace, -, ⟨rfl, rfl⟩ | hx⟩ := exec_br_completes hu ht hfree
    all_goals
      refine ⟨_, htrace, ?_⟩
      rw [regs_br, hregs, report_status, report_result, statusWord_eq_two_iff, statusWord_eq_zero_iff]
    · exact ⟨iff_of_false (by simp [ErrorKind.code]) (by simp), nofun⟩
    · refine ⟨hx.code_eq_endOfStream_iff, fun heod hi => ?_⟩
      have hE := hx.of_eod heod
      obtain ⟨-, n, hn⟩ | ⟨hok, -⟩ := hE.code
      · exact absurd hn (hi n)
      refine ⟨hok, ?_, ?_, ?_⟩
      · rintro rfl
        exact congrArg Response.value hE
      · rintro rfl
        obtain ⟨v, rfl, hv⟩ := hE
        exact hv
      · rintro rfl
        obtain ⟨v, rfl, hv⟩ := hE
        exact hv

/-- Settles O18: a unit's command reports IO_ERROR when its own port refused a transaction, and makes none on the other. -/
theorem ioErrorCauses : Obligations.IoErrorCauses := by
  intro i s t ht hfree
  cases hu : i.unit with
  | bw =>
    rw [hu] at hfree
    obtain ⟨x, ws, hregs, htrace, hsource, -, hio⟩ := exec_bw_completes hu ht hfree
    refine ⟨ws, [], htrace, by rw [hsource, List.append_nil], ?_, ?_⟩
    · rw [regs_bw, hregs, report_status, statusWord_eq_three_iff, hio]
      simp
    · rintro (rfl | rfl)
      · cases ht; rfl
      · cases hu
  | br =>
    rw [hu] at hfree
    obtain ⟨x, rs, hregs, htrace, hsink, hx⟩ := exec_br_completes hu ht hfree
    refine ⟨[], rs, by rw [hsink, List.append_nil], htrace, ?_, ?_⟩
    · rw [regs_br, hregs, report_status, statusWord_eq_three_iff]
      obtain ⟨rfl, rfl⟩ | hx := hx
      · exact iff_of_false (by simp [ErrorKind.code]) (by simp)
      · rw [hx.code_eq_ioError_iff]
        simp [SourceRefused]
    · rintro (rfl | rfl)
      · cases hu
      · exact exec_mark_status ht hfree

/-- Settles O30: the loops append a first part of their bits, and loading the operands changes neither the writer nor the
buffer space. -/
theorem writingCommandsAppendAPrefix : Obligations.WritingCommandsAppendAPrefix := by
  intro c s t h hc hgood hexec
  have hu : c.instr.unit = .bw := by obtain ⟨n, hi⟩ | hi | hi := hc <;> rw [hi] <;> rfl
  rw [load_of_bw hu] at hgood hexec
  rw [exec_of_bw hu] at hexec
  cases hexec
  obtain ⟨hlegal, j, hout, hall⟩ := writerRun_appendsPrefix hc rfl rfl hgood h
  exact ⟨hlegal, j, hout, fun hok => hall ((finishBw_answered_iff ..).1 hok)⟩

/-- Settles O39: the eight-bit run of RDBYTE either ended on an EOD, its last transaction, or gave an eight-bit value. -/
theorem sentinelIsNoByte : Obligations.SentinelIsNoByte := by
  intro s t v h hexec hok
  cases hexec
  have hd : (rdByte s.reader).1 = .done (Response.ok v) := (finishBr_answered_iff ..).1 hok
  by_cases heos : (rdBits 8 s.reader).1 = .done (raise .endOfStream)
  · right
    rw [rdByte_of_endOfStream heos] at hd ⊢
    obtain ⟨rs, ht, hans⟩ := rdBits_answers (n := 8) (by decide) s.reader
    obtain ⟨xs, rfl⟩ := hans.last_of_endOfStream heos
    exact ⟨by cases hd; rfl, xs, ht.trans (List.append_assoc _ _ _).symm⟩
  · left
    rw [rdByte_eq_rdBits heos] at hd
    obtain ⟨-, -, hlt, -⟩ := rdBits_ok (r := s.reader) h hd
    exact Nat.le_of_lt_succ hlt

/-- Settles O6: a step goes on, or it is a host access that reaches no register. -/
theorem noCommandStopsTheMachine : Obligations.NoCommandStopsTheMachine := by
  refine ⟨exec_next, fun s r hr => ?_, fun s f hf => ?_⟩
  · obtain ⟨t, h⟩ | ⟨u, o, h, -⟩ | ⟨a, h, -⟩ := step_cases s <;> cases h.symm.trans hr
  · obtain ⟨t, h⟩ | ⟨u, o, h, hnone, hhost⟩ | ⟨a, h, hnone, hhost⟩ := step_cases s <;> cases h.symm.trans hf
    · exact .inl ⟨u, o, rfl, not_mem_offsets_of_atOffset hnone, hhost⟩
    · exact .inr ⟨a, rfl, not_alone_of_locate hnone, hhost⟩

/-- Settles O7, code by code. -/
theorem statusCodesAreNumbered : Obligations.StatusCodesAreNumbered := ⟨rfl, fun _ => ⟨rfl, rfl, rfl, rfl⟩⟩

end Sys2Proof.Machine

/-! SUPPORT. The reset and hazards family: a command leaves its unit waiting exactly when one request of it was never
answered, a unit that waits takes no command, and a reset input restores its own unit alone (70_reset_and_hazards.md R140, R141, R151). -/

namespace Sys2Proof.Machine

/-! ## How a command's end leaves its unit (R42(b), R151) -/

theorem blocked_of_pending {ρ : Type} {e : Ending ρ} (h : e.pending.isSome = true) : ∃ q, e = .blocked q := by
  cases e with
  | done x => cases h
  | blocked q => exact ⟨q, rfl⟩

theorem writerRun_owes (i : Instr) (regs : HostRegs) (b : BufferSpace) (w : Writer) :
    w.port.Owes (writerRun i regs b w).2.port (writerRun i regs b w).1.owed := by
  cases i with
  | wrbits n => exact wrBits_owes _ n w
  | wrbyte => exact wrBits_owes _ 8 w
  | wrbuf => exact wrBuf_owes b _ _ w
  | wclose => exact closeSteps_owes _ false w
  | wflush | rdbits | rdbyte | rdbuf | mark | reset | skip => rfl

theorem readerRun_owes (i : Instr) (regs : HostRegs) (snap : Accum) (r : Reader) (b : BufferSpace) :
    r.port.Owes (readerRun i regs snap r b).2.1.port (readerRun i regs snap r b).1.owed := by
  cases i with
  | rdbits n => exact rdBits_owes n r
  | rdbyte => exact rdByte_owes r
  | rdbuf => exact rdBuf_owes _ _ r b
  | mark => exact markSource_owes _ r
  | reset => exact resetSource_owes snap r
  | skip => exact skipLoop_owes _ 0 r
  | wrbits | wrbyte | wrbuf | wflush | wclose => rfl

/-- The end `e` of a BW command says whether its unit waits, what its registers hold and how many requests it owes. -/
theorem exec_bw_owes {i : Instr} {s t : State} (hu : i.unit = .bw) (ht : exec i s = .next t) :
    ∃ e : Ending SinkReq, t.blocked .bw = e.pending.isSome ∧ t.bw.regs = e.report s.bw.regs ∧
      s.sink.Owes t.sink e.owed ∧ t.source = s.source := by
  rw [exec_of_bw hu] at ht
  cases ht
  exact ⟨_, rfl, rfl, writerRun_owes i s.bw.regs s.buffer s.writer, rfl⟩

/-- The same of a BR command. -/
theorem exec_br_owes {i : Instr} {s t : State} (hu : i.unit = .br) (ht : exec i s = .next t) :
    ∃ e : Ending SourceReq, t.blocked .br = e.pending.isSome ∧ t.br.regs = e.report s.br.regs ∧
      s.source.Owes t.source e.owed ∧ t.sink = s.sink := by
  rw [exec_of_br hu] at ht
  cases ht
  exact ⟨_, rfl, rfl, readerRun_owes i s.br.regs s.br.snap s.reader s.buffer, rfl⟩

theorem exec_free_owes_nothing {i : Instr} {s t : State} (ht : exec i s = .next t) (hfree : t.blocked i.unit = false) :
    s.sink.Owes t.sink 0 ∧ s.source.Owes t.source 0 := by
  cases hu : i.unit with
  | bw =>
    obtain ⟨e, hb, -, howes, hsource⟩ := exec_bw_owes hu ht
    rw [hu, hb] at hfree
    obtain ⟨x, rfl⟩ := done_of_not_blocked hfree
    exact ⟨howes, by rw [hsource]; rfl⟩
  | br =>
    obtain ⟨e, hb, -, howes, hsink⟩ := exec_br_owes hu ht
    rw [hu, hb] at hfree
    obtain ⟨x, rfl⟩ := done_of_not_blocked hfree
    exact ⟨by rw [hsink]; rfl, howes⟩

theorem exec_waiting_owes_one {i : Instr} {s t : State} (ht : exec i s = .next t) (hwait : t.blocked i.unit = true) :
    t.regs i.unit = s.regs i.unit ∧ s.sink.Owes t.sink (if i.unit = .bw then 1 else 0) ∧
      s.source.Owes t.source (if i.unit = .br then 1 else 0) := by
  cases hu : i.unit with
  | bw =>
    obtain ⟨e, hb, hregs, howes, hsource⟩ := exec_bw_owes hu ht
    rw [hu, hb] at hwait
    obtain ⟨q, rfl⟩ := blocked_of_pending hwait
    exact ⟨hregs, howes, by rw [hsource]; rfl⟩
  | br =>
    obtain ⟨e, hb, hregs, howes, hsink⟩ := exec_br_owes hu ht
    rw [hu, hb] at hwait
    obtain ⟨q, rfl⟩ := blocked_of_pending hwait
    exact ⟨hregs, by rw [hsink]; rfl, howes⟩

/-! ## Requests that are never answered, and the unit that waits (R151) -/

theorem markSource_of_unanswered {l : Word} {r : Reader} {p : SourcePort} (h : sourceMark l r.port = (none, p)) :
    markSource l r = (.blocked (.mark l), { acc := r.acc, port := p }) := by
  rw [markSource, h]

theorem resetSource_of_unanswered {r : Reader} {p : SourcePort} (h : sourceReset r.port = (none, p)) (snap : Accum) :
    resetSource snap r = (.blocked .reset, { acc := r.acc, port := p }) := by
  rw [resetSource, h]

theorem issue_of_blocked {u : UnitId} {s : State} (hb : s.blocked u = true) (w : Word) : issue u w s = .next s := by
  rw [issue, if_pos hb]

/-! ## The reset input (R140, R141) -/

theorem step_of_reset {s : State} {u : UnitId} {rest : List Event} (h : s.host = .reset u :: rest) :
    step s = .next (({ s with host := rest } : State).resetUnit u) := by
  rw [step, h]
  rfl

/-! ## The statements -/

/-- Settles O8: requests against answers, counted unit by unit; a MARK or a RESET that waits; a write of CMD while one
waits. -/
theorem unansweredTransactionBlocksTheUnit : Obligations.UnansweredTransactionBlocksTheUnit := by
  refine ⟨fun i s t ht => ⟨exec_free_owes_nothing ht, exec_waiting_owes_one ht⟩, fun s p hp => ⟨_, rfl, ?_⟩,
    fun s p hp => ⟨_, rfl, ?_⟩, fun s u w rest h hb => ?_⟩
  · rw [markSource_of_unanswered (l := s.br.regs.limit) (r := s.reader) hp]
    exact ⟨rfl, rfl⟩
  · rw [resetSource_of_unanswered (r := s.reader) hp]
    exact ⟨rfl, rfl, rfl⟩
  · exact (step_of_write .cmd h).trans (issue_of_blocked ((blocked_withHost s rest u).trans hb) w)

/-- Settles O2, unit by unit. -/
theorem resetInputRestoresOneUnit : Obligations.ResetInputRestoresOneUnit := by
  intro s u rest h
  refine ⟨_, step_of_reset h, ?_⟩
  cases u with
  | bw => exact ⟨rfl, rfl, fun _ => ⟨rfl, rfl⟩, nofun, rfl, rfl, rfl, rfl, rfl, rfl⟩
  | br => exact ⟨rfl, rfl, nofun, fun _ => ⟨rfl, rfl, rfl⟩, rfl, rfl, rfl, rfl, rfl, rfl⟩

end Sys2Proof.Machine
